-- ==== Sys2Proof/Word.lean ====
section
/-! DEFINITION. The word and byte types of the SSAM-3.1 engine (spec 00_scope.md R6, R9). -/

namespace Sys2Proof

/-- A register, a memory word, an instruction word or an address: 16 bits, unsigned (R6, R9, R51).
`+`, `-` and unary `-` on it are modulo 2^16, as R9 says. -/
abbrev Word := BitVec 16

/-- One byte of memory, the unit an address names (R6, R50). -/
abbrev Byte := BitVec 8

/-- A register field of an instruction word: regA at bits 10:8, regB at bits 7:5 (R14, R21). -/
abbrev RegField := BitVec 3

end Sys2Proof
end

