-- ==== Sys2Proof/Machine/Bytes.lean ====
section
/-! DEFINITION. Byte order: a word is two bytes, the high byte first (spec 20_memory.md R52, R53, R58). -/

namespace Sys2Proof

/-- The word whose high byte is `hi` and low byte `lo` (R52). -/
def joinBytes (hi lo : Byte) : Word := hi ++ lo

/-- `v[15:8]`, the byte stored at the lower address (R53). -/
def highByte (v : Word) : Byte := v.extractLsb' 8 8

/-- `v[7:0]`, the byte stored at the higher address (R53). -/
def lowByte (v : Word) : Byte := v.extractLsb' 0 8

end Sys2Proof
end

