-- ==== Sys2Proof/Syntax.lean ====
section
/-! DEFINITION. The instructions: one constructor for each row of spec/opcode_table.json (30_encoding.md R95),
the seven illegal rows among them. Operands are the fields as R120's decoder extracts them; a field's type
is its width, so every term is encodable. Bits a format leaves unused are no part of an instruction (R88). -/

namespace Sys2Proof

/-- One instruction, as `Decode` of 40_cycle.md R120 produces it. -/
inductive Instr where
  -- flow class, format F (R82)
  | halt
  | nop
  /-- the mnemonic `return` -/
  | ret
  | error
  | illegalFlow100
  | illegalFlow101
  | illegalFlow110
  | illegalFlow111
  -- transfer class, formats TI and TR (R83, R84)
  | loadImmediate (regA : RegField) (imm8 : BitVec 8)
  | loadAbsolute (regA : RegField) (addr8 : BitVec 8)
  | loadIndirect (regA regB : RegField)
  | loadIndexed (regA regB : RegField) (off5 : BitVec 5)
  | storeAbsolute (regA : RegField) (addr8 : BitVec 8)
  | storeIndirect (regA regB : RegField)
  | storeIndexed (regA regB : RegField) (off5 : BitVec 5)
  | illegalTransfer111
  -- manipulate class, formats MR and MI (R85, R86)
  | negate (regA : RegField)
  | addRegister (regA regB : RegField)
  | addImmediate (regA : RegField) (imm8 : BitVec 8)
  | subtractRegister (regA regB : RegField)
  | subtractImmediate (regA : RegField) (imm8 : BitVec 8)
  | illegalManipulate101
  | illegalManipulate110
  | move (regA regB : RegField)
  -- jump class, format J (R87)
  | jump (t12 : BitVec 12)
  | jumpIfZero (t12 : BitVec 12)
  | jumpIfNegative (t12 : BitVec 12)
  | call (t12 : BitVec 12)
  deriving DecidableEq, Repr

/-- The mnemonic of the instruction's row, as spec/opcode_table.json spells it. -/
def Instr.mnemonic : Instr → String
  | .halt => "halt"
  | .nop => "nop"
  | .ret => "return"
  | .error => "error"
  | .illegalFlow100 => "illegal-flow-100"
  | .illegalFlow101 => "illegal-flow-101"
  | .illegalFlow110 => "illegal-flow-110"
  | .illegalFlow111 => "illegal-flow-111"
  | .loadImmediate .. => "load-immediate"
  | .loadAbsolute .. => "load-absolute"
  | .loadIndirect .. => "load-indirect"
  | .loadIndexed .. => "load-indexed"
  | .storeAbsolute .. => "store-absolute"
  | .storeIndirect .. => "store-indirect"
  | .storeIndexed .. => "store-indexed"
  | .illegalTransfer111 => "illegal-transfer-111"
  | .negate .. => "negate"
  | .addRegister .. => "add-register"
  | .addImmediate .. => "add-immediate"
  | .subtractRegister .. => "subtract-register"
  | .subtractImmediate .. => "subtract-immediate"
  | .illegalManipulate101 => "illegal-manipulate-101"
  | .illegalManipulate110 => "illegal-manipulate-110"
  | .move .. => "move"
  | .jump .. => "jump"
  | .jumpIfZero .. => "jump-if-zero"
  | .jumpIfNegative .. => "jump-if-negative"
  | .call .. => "call"

end Sys2Proof
end

