-- ==== Sys2Proof/Decode.lean ====
section
/-! DEFINITION. The decoder (spec 40_cycle.md R120), the encoder (30_encoding.md R96), and the opcode map they
follow (R95). -/

namespace Sys2Proof

/-! ## Instruction fields (00_scope.md R14) -/

/-- `cls = IR[15:14]`. -/
def classField (w : Word) : BitVec 2 := w.extractLsb' 14 2

/-- `sub3 = IR[13:11]`. -/
def sub3Field (w : Word) : BitVec 3 := w.extractLsb' 11 3

/-- `sub2 = IR[13:12]`. -/
def sub2Field (w : Word) : BitVec 2 := w.extractLsb' 12 2

/-- `A = IR[10:8]` (regA). -/
def regAField (w : Word) : RegField := w.extractLsb' 8 3

/-- `B = IR[7:5]` (regB). -/
def regBField (w : Word) : RegField := w.extractLsb' 5 3

/-- `imm8 = IR[7:0]`, the immediate and the absolute address. -/
def imm8Field (w : Word) : BitVec 8 := w.extractLsb' 0 8

/-- `off5 = IR[4:0]`. -/
def off5Field (w : Word) : BitVec 5 := w.extractLsb' 0 5

/-- `t12 = IR[11:0]`. -/
def t12Field (w : Word) : BitVec 12 := w.extractLsb' 0 12

/-! ## Decode: class first, then the sub-opcode within it (R120) -/

/-- Class 00: `IR[13:11]` selects; `IR[10:0]` is ignored (R82). -/
def decodeFlow (w : Word) : Instr :=
  match (sub3Field w).toFin with
  | 0 => .halt
  | 1 => .nop
  | 2 => .ret
  | 3 => .error
  | 4 => .illegalFlow100
  | 5 => .illegalFlow101
  | 6 => .illegalFlow110
  | 7 => .illegalFlow111

/-- Class 01 (R83, R84); `IR[4:0]` is ignored by the indirect forms. -/
def decodeTransfer (w : Word) : Instr :=
  match (sub3Field w).toFin with
  | 0 => .loadImmediate (regAField w) (imm8Field w)
  | 1 => .loadAbsolute (regAField w) (imm8Field w)
  | 2 => .loadIndirect (regAField w) (regBField w)
  | 3 => .loadIndexed (regAField w) (regBField w) (off5Field w)
  | 4 => .storeAbsolute (regAField w) (imm8Field w)
  | 5 => .storeIndirect (regAField w) (regBField w)
  | 6 => .storeIndexed (regAField w) (regBField w) (off5Field w)
  | 7 => .illegalTransfer111

/-- Class 10 (R85, R86); `IR[7:0]` is ignored by negate, `IR[4:0]` by the two-register forms. -/
def decodeManipulate (w : Word) : Instr :=
  match (sub3Field w).toFin with
  | 0 => .negate (regAField w)
  | 1 => .addRegister (regAField w) (regBField w)
  | 2 => .addImmediate (regAField w) (imm8Field w)
  | 3 => .subtractRegister (regAField w) (regBField w)
  | 4 => .subtractImmediate (regAField w) (imm8Field w)
  | 5 => .illegalManipulate101
  | 6 => .illegalManipulate110
  | 7 => .move (regAField w) (regBField w)

/-- Class 11: `IR[13:12]` selects; every other bit is the target (R87). -/
def decodeJump (w : Word) : Instr :=
  match (sub2Field w).toFin with
  | 0 => .jump (t12Field w)
  | 1 => .jumpIfZero (t12Field w)
  | 2 => .jumpIfNegative (t12Field w)
  | 3 => .call (t12Field w)

/-- Decode (R120): a total, pure function of the 16-bit word. Words that match no defined pair decode to the illegal
row they stand in (R97), so no word is left without a result. -/
def decode (w : Word) : Instr :=
  match (classField w).toFin with
  | 0 => decodeFlow w
  | 1 => decodeTransfer w
  | 2 => decodeManipulate w
  | 3 => decodeJump w

/-- Why the decoder of a byte string gives no instruction. -/
inductive DecodeReject where
  /-- fewer than the two bytes of an instruction word are left (R80) -/
  | tooShort
  deriving DecidableEq, Repr

/-- Decode the first instruction of a byte string: one word, high byte first (R80, R52), and what is left. -/
def decodeBytes : List Byte → Except DecodeReject (Instr × List Byte)
  | hi :: lo :: rest => .ok (decode (joinBytes hi lo), rest)
  | [_] => .error .tooShort
  | [] => .error .tooShort

/-! ## Encode (R96): class, sub-opcode and operand fields in order from bit 15; 0 in every unused bit -/

/-- Format F: `sub3 << 11`. -/
def encodeF (sub3 : BitVec 3) : Word := 0b00#2 ++ sub3 ++ 0#11

/-- Format TI: `0x4000 | sub3 << 11 | A << 8 | imm8`. -/
def encodeTI (sub3 : BitVec 3) (a : RegField) (imm8 : BitVec 8) : Word := 0b01#2 ++ sub3 ++ a ++ imm8

/-- Format TR: `0x4000 | sub3 << 11 | A << 8 | B << 5 | off5`. -/
def encodeTR (sub3 : BitVec 3) (a b : RegField) (off5 : BitVec 5) : Word := 0b01#2 ++ sub3 ++ a ++ b ++ off5

/-- Format MR: `0x8000 | sub3 << 11 | A << 8 | B << 5`. -/
def encodeMR (sub3 : BitVec 3) (a b : RegField) : Word := 0b10#2 ++ sub3 ++ a ++ b ++ 0#5

/-- Format MI: `0x8000 | sub3 << 11 | A << 8 | imm8`. -/
def encodeMI (sub3 : BitVec 3) (a : RegField) (imm8 : BitVec 8) : Word := 0b10#2 ++ sub3 ++ a ++ imm8

/-- Format J: `0xC000 | sub2 << 12 | t12`. -/
def encodeJ (sub2 : BitVec 2) (t12 : BitVec 12) : Word := 0b11#2 ++ sub2 ++ t12

/-- The instruction's word (R95, R96). An illegal row is encoded as the row's own match value (R95). -/
def encode : Instr → Word
  | .halt => encodeF 0b000#3
  | .nop => encodeF 0b001#3
  | .ret => encodeF 0b010#3
  | .error => encodeF 0b011#3
  | .illegalFlow100 => encodeF 0b100#3
  | .illegalFlow101 => encodeF 0b101#3
  | .illegalFlow110 => encodeF 0b110#3
  | .illegalFlow111 => encodeF 0b111#3
  | .loadImmediate a imm => encodeTI 0b000#3 a imm
  | .loadAbsolute a addr => encodeTI 0b001#3 a addr
  | .loadIndirect a b => encodeTR 0b010#3 a b 0#5
  | .loadIndexed a b off => encodeTR 0b011#3 a b off
  | .storeAbsolute a addr => encodeTI 0b100#3 a addr
  | .storeIndirect a b => encodeTR 0b101#3 a b 0#5
  | .storeIndexed a b off => encodeTR 0b110#3 a b off
  | .illegalTransfer111 => encodeTI 0b111#3 0#3 0#8
  | .negate a => encodeMR 0b000#3 a 0#3
  | .addRegister a b => encodeMR 0b001#3 a b
  | .addImmediate a imm => encodeMI 0b010#3 a imm
  | .subtractRegister a b => encodeMR 0b011#3 a b
  | .subtractImmediate a imm => encodeMI 0b100#3 a imm
  | .illegalManipulate101 => encodeMR 0b101#3 0#3 0#3
  | .illegalManipulate110 => encodeMR 0b110#3 0#3 0#3
  | .move a b => encodeMR 0b111#3 a b
  | .jump t => encodeJ 0b00#2 t
  | .jumpIfZero t => encodeJ 0b01#2 t
  | .jumpIfNegative t => encodeJ 0b10#2 t
  | .call t => encodeJ 0b11#2 t

/-- The instruction's two bytes as memory holds them, high byte first (R80, R52). -/
def encodeBytes (i : Instr) : List Byte := [highByte (encode i), lowByte (encode i)]

/-! ## The opcode map (R95) -/

/-- One row of the opcode map. A word `w` selects it when `w &&& mask = bits` (R95). -/
structure OpcodeRow where
  /-- the row's mnemonic in spec/opcode_table.json -/
  mnemonic : String
  /-- the column `match` -/
  bits : Word
  /-- the column `mask` -/
  mask : Word
  /-- the bits the row's `encoding` string does not mark `x` (unused) -/
  used : Word
  deriving DecidableEq, Repr

/-- The complete opcode map, row by row (R95, spec/opcode_table.json). -/
def opcodeMap : List OpcodeRow :=
  [ ⟨"halt", 0x0000#16, 0xF800#16, 0xF800#16⟩,
    ⟨"nop", 0x0800#16, 0xF800#16, 0xF800#16⟩,
    ⟨"return", 0x1000#16, 0xF800#16, 0xF800#16⟩,
    ⟨"error", 0x1800#16, 0xF800#16, 0xF800#16⟩,
    ⟨"illegal-flow-100", 0x2000#16, 0xF800#16, 0xF800#16⟩,
    ⟨"illegal-flow-101", 0x2800#16, 0xF800#16, 0xF800#16⟩,
    ⟨"illegal-flow-110", 0x3000#16, 0xF800#16, 0xF800#16⟩,
    ⟨"illegal-flow-111", 0x3800#16, 0xF800#16, 0xF800#16⟩,
    ⟨"load-immediate", 0x4000#16, 0xF800#16, 0xFFFF#16⟩,
    ⟨"load-absolute", 0x4800#16, 0xF800#16, 0xFFFF#16⟩,
    ⟨"load-indirect", 0x5000#16, 0xF800#16, 0xFFE0#16⟩,
    ⟨"load-indexed", 0x5800#16, 0xF800#16, 0xFFFF#16⟩,
    ⟨"store-absolute", 0x6000#16, 0xF800#16, 0xFFFF#16⟩,
    ⟨"store-indirect", 0x6800#16, 0xF800#16, 0xFFE0#16⟩,
    ⟨"store-indexed", 0x7000#16, 0xF800#16, 0xFFFF#16⟩,
    ⟨"illegal-transfer-111", 0x7800#16, 0xF800#16, 0xF800#16⟩,
    ⟨"negate", 0x8000#16, 0xF800#16, 0xFF00#16⟩,
    ⟨"add-register", 0x8800#16, 0xF800#16, 0xFFE0#16⟩,
    ⟨"add-immediate", 0x9000#16, 0xF800#16, 0xFFFF#16⟩,
    ⟨"subtract-register", 0x9800#16, 0xF800#16, 0xFFE0#16⟩,
    ⟨"subtract-immediate", 0xA000#16, 0xF800#16, 0xFFFF#16⟩,
    ⟨"illegal-manipulate-101", 0xA800#16, 0xF800#16, 0xF800#16⟩,
    ⟨"illegal-manipulate-110", 0xB000#16, 0xF800#16, 0xF800#16⟩,
    ⟨"move", 0xB800#16, 0xF800#16, 0xFFE0#16⟩,
    ⟨"jump", 0xC000#16, 0xF000#16, 0xFFFF#16⟩,
    ⟨"jump-if-zero", 0xD000#16, 0xF000#16, 0xFFFF#16⟩,
    ⟨"jump-if-negative", 0xE000#16, 0xF000#16, 0xFFFF#16⟩,
    ⟨"call", 0xF000#16, 0xF000#16, 0xFFFF#16⟩ ]

/-- The word selects the row (R95). -/
def OpcodeRow.selects (r : OpcodeRow) (w : Word) : Bool := w &&& r.mask == r.bits

/-! ## The host's entry point -/

/-- The instruction word of an opcode-table row given as a number of `nbits` bits: bit 0 is bit 0 of the one word an
instruction has (R80), and bits from `nbits` up are 0. -/
def tableWord (nbits w : Nat) : Word := BitVec.ofNat 16 (w % 2 ^ nbits)

/-- The instruction the decoder reads from an opcode-table row's bits, laid out as two bytes, high byte first (R80,
R52). No instruction is longer than one word, so more than 16 bits are none. -/
def decodeTableWord (nbits w : Nat) : Option Instr :=
  if 16 < nbits then none
  else
    match decodeBytes [highByte (tableWord nbits w), lowByte (tableWord nbits w)] with
    | .ok (i, _) => some i
    | .error _ => none

end Sys2Proof
end

