-- ==== Sys2Proof/Config.lean ====
section
/-! DEFINITION. What an implementation fixes (the parameters of spec 00_scope.md R7), the launch values the model's
reset uses, and the free values the spec leaves open. Nothing here is machine state: a step never changes it. -/

namespace Sys2Proof

/-- The nine registers of the register file, in the order the spec lists them (10_state.md R20). -/
inductive Reg where
  /-- general register R0 -/
  | r0
  /-- general register R1 -/
  | r1
  /-- general register R2 -/
  | r2
  /-- general register R3 -/
  | r3
  /-- the accumulator -/
  | ac
  /-- the stack pointer -/
  | sp
  /-- the base (frame) pointer -/
  | bp
  /-- the program counter -/
  | pc
  /-- the instruction register -/
  | ir
  deriving DecidableEq, Repr

namespace Config

/-- Parameter `EDGE_WORD` (R7, R54): what a word access at 0xFFFF does with its second byte. -/
inductive EdgeWord where
  /-- the second byte is at 0x0000 -/
  | wrap
  /-- the access is refused: the step ends in a fault and writes nothing -/
  | fault
  deriving DecidableEq, Repr

/-- Parameter `LEGACY_REGB` (R7, R94): how add-register and subtract-register find their second operand. -/
inductive LegacyRegB where
  /-- regB is bits 7:5, as in every other form -/
  | intended
  /-- the register the original reads is not known: the AC result is any 16-bit value -/
  | unknown
  deriving DecidableEq, Repr

/-- The MODEL's own parameter (DESIGN CHOICE, log 15): what a write through a register field does where `REG_MAP` gives the field IR. R7
lets a map name IR and R11 makes that write a write of IR, while 10_state.md R22 and 40_cycle.md R119 say that execute
never writes IR; no file of the spec says which yields, so the model leaves it open. -/
inductive IrByField where
  /-- IR keeps the fetched word, as R22 and R119 say -/
  | kept
  /-- IR takes the value, as R11 and the pseudocode of the loads and move say -/
  | written
  deriving DecidableEq, Repr

/-- The parameters of R7 that every step reads, and the model's own `irByField`. They are plain data, so that a statement can be made for every value
of them (`regMap` lists `REG_MAP(0)` to `REG_MAP(7)`: any function from the eight field values to the nine registers). -/
structure Params where
  /-- `REG_MAP`: the register each 3-bit field value selects (R7, R21) -/
  regMap : Vector Reg 8
  /-- `EDGE_WORD` (R54) -/
  edgeWord : EdgeWord
  /-- `LEGACY_REGB` (R94) -/
  legacyRegB : LegacyRegB
  /-- the model's own parameter for a write through a field that names IR (log 15) -/
  irByField : IrByField
  deriving DecidableEq, Repr

/-- The defaults of R7's table: the source's listing order, `wrap`, `intended`.
DESIGN CHOICE (log 1, 2, 3), unsafe: the spec marks D1 and D4 `OPEN`. This map leaves IR out, so no run depends on the value
of `irByField` here (log 15). -/
def defaultParams : Params :=
  { regMap := #v[.r0, .r1, .r2, .r3, .ac, .sp, .bp, .pc]
    edgeWord := .wrap
    legacyRegB := .intended
    irByField := .kept }

/-- The launch value `initialSP` of `State.reset`: the one every program of 95_test_vectors.md L3 uses.
DESIGN CHOICE (log 4), unsafe: R7 gives it 'per program'. -/
def initialSP : Word := 0x0100#16

/-- The launch value `initialPC` of `State.reset`. DESIGN CHOICE (log 4), unsafe: R7 gives it 'per program'. -/
def initialPC : Word := 0x0000#16

/-- FREE VALUE (log 5): the n-th draw of `LEGACY_REGB = unknown`, any 16-bit value (R94, R161, R163). -/
opaque legacyDraw : Nat → Word

/-- FREE VALUE (log 6): what each register holds before the first INIT; the spec leaves it unspecified (R33, R231). -/
opaque powerUpReg : Reg → Word

/-- FREE VALUE (log 6): `halted` before the first INIT; unspecified (R33, R231). -/
opaque powerUpHalted : Bool

/-- FREE VALUE (log 6): `errored` before the first INIT; unspecified (R33, R231). -/
opaque powerUpErrored : Bool

end Config
end Sys2Proof
end

