-- ==== Sys2Proof/Machine/Memory.lean ====
section
/-! DEFINITION. The memory array: 65536 bytes, one flat space for code, data and stack (spec 20_memory.md R50), held as
a list of (address, byte) pairs in one canonical form, and its byte accessors (R57). -/

namespace Sys2Proof.Machine

/-- Memory as the list of the bytes that differ from `unlistedByte`, by strictly rising address. -/
abbrev Memory := List Host.Cell

namespace Memory

/-- The number of bytes of the address space (R50). -/
def size : Nat := 65536

/-- What an address no entry lists reads as: every byte is 0x00 at power-up (R55). -/
def unlistedByte : Byte := 0x00#8

/-- The addresses of the list rise strictly from `low` and stay inside the array, and no entry holds `unlistedByte`. -/
def wfFrom : Nat → Memory → Bool
  | _, [] => true
  | low, (a, b) :: rest => decide (low ≤ a) && decide (a < size) && decide (b ≠ unlistedByte) && wfFrom (a + 1) rest

/-- The canonical form: two memories with the same bytes are the same list. -/
def wf (m : Memory) : Bool := wfFrom 0 m

/-- `readByte(addr)`: the byte last written (or loaded) at the address, or the power-up byte (R57, R61, R55). -/
def readByte : Memory → Nat → Byte
  | [], _ => unlistedByte
  | (k, b) :: rest, a => if k = a then b else readByte rest a

/-- The memory without an entry for address `a`. -/
def erase (m : Memory) (a : Nat) : Memory := m.filter fun c => decide (c.1 ≠ a)

/-- Put an entry for `a` before the first entry of a higher address. -/
def insert : Memory → Nat → Byte → Memory
  | [], a, b => [(a, b)]
  | (k, c) :: rest, a, b => if a < k then (a, b) :: (k, c) :: rest else (k, c) :: insert rest a b

/-- `writeByte(addr, byte)`: the byte at `a` becomes `b`; writing the power-up byte leaves no entry (R57). -/
def writeByte (m : Memory) (a : Nat) (b : Byte) : Memory :=
  if b = unlistedByte then erase m a else insert (erase m a) a b

/-- Copy a byte sequence to consecutive addresses from `a` up; the bytes beyond it are left as they are (R56, D12). -/
def writeBytes (m : Memory) : Nat → List Byte → Memory
  | _, [] => m
  | a, b :: rest => writeBytes (writeByte m a b) (a + 1) rest

end Memory
end Sys2Proof.Machine
end

