-- ==== Sys2Proof/Machine/State.lean ====
section
/-! DEFINITION. The machine's state as plain data (spec 10_state.md), the reasons a step can stop, and the state
after reset (R32, R230). -/

namespace Sys2Proof.Machine

/-- The register file: nine 16-bit registers, none an alias of another, none hardwired (R20). -/
structure RegFile where
  /-- R0, general purpose -/
  r0 : Word
  /-- R1, general purpose -/
  r1 : Word
  /-- R2, general purpose -/
  r2 : Word
  /-- R3, general purpose -/
  r3 : Word
  /-- AC, the accumulator -/
  ac : Word
  /-- SP, the stack pointer -/
  sp : Word
  /-- BP, the base pointer -/
  bp : Word
  /-- PC, the program counter: a byte address (R28) -/
  pc : Word
  /-- IR, the word fetched last -/
  ir : Word
  deriving DecidableEq, Repr

/-- Where the host's command sequence stands (40_cycle.md R117). The MODEL's own field (log 9): the machine has no
register for it; it says which of the host's moves exist. -/
inductive HostPhase where
  /-- before the first INIT: registers and flags are unspecified, FETCH and EXECUTE are refused (R33, R117) -/
  | powerUp
  /-- between cycles: the host may act, and a step is a whole cycle (R111, R123) -/
  | ready
  /-- after a FETCH whose EXECUTE has not come yet: EXECUTE is the one move (R117) -/
  | fetched
  deriving DecidableEq, Repr

/-- The complete state (10_state.md: the nine registers, the two flags, the memory), and beside it three fields of the
model's own: the parameters of R7 (`params`), the host's phase (`phase`) and the count of draws taken (`draws`). -/
structure State where
  /-- the nine registers (R20) -/
  regs : RegFile
  /-- sticky flag: set only by halt, cleared only by INIT (R24) -/
  halted : Bool
  /-- sticky flag: set by error and by every illegal word, cleared only by INIT (R25) -/
  errored : Bool
  /-- the 65536 bytes of memory (R50) -/
  mem : Memory
  /-- the parameters of R7 (and the model's own `irByField`, log 15), fixed for the machine: no step and no command writes them (log 8) -/
  params : Config.Params
  /-- the host's place in the command order (R117; log 9) -/
  phase : HostPhase
  /-- how many draws `LEGACY_REGB = unknown` has taken (R94; log 5) -/
  draws : Nat
  deriving DecidableEq, Repr

/-- Which word access met the edge of the address space. -/
inductive Access where
  /-- the fetch of an instruction word (R118) -/
  | fetch
  /-- the word read of a load (R141 to R143) -/
  | load
  /-- the word write of a store (R144 to R146) -/
  | store
  /-- a push of call (R183) -/
  | push
  /-- a pop of return (R132) -/
  | pop
  /-- the host's `readWord` (R110, R114) -/
  | hostRead
  deriving DecidableEq, Repr

/-- The machine's faults. There is one, and it exists only in the model (60_exceptions.md R203). -/
inductive Fault where
  /-- Raised by any word access at 0xFFFF when `EDGE_WORD = fault` (R54): the step has no result and nothing is
  written. Safe: the spec refuses the access in the same place. -/
  | wordAtTop (access : Access)
  deriving DecidableEq, Repr

/-- Why a step or a host command has no meaning. -/
inductive Refusal where
  /-- Raised by `exec` for an instruction that has no meaning yet (none is left). Safe. -/
  | notModelled (mnemonic : String)
  /-- Raised by `step`, FETCH and EXECUTE before the first INIT (R33, R117). Safe: the spec gives them no meaning. -/
  | beforeInit
  /-- Raised by `step` and by every host command but EXECUTE between a FETCH and its EXECUTE: the host acts only
  between cycles and alternates FETCH and EXECUTE (R111, R117). Safe: the spec says such a host has no move. -/
  | midCycle
  /-- Raised by EXECUTE with no FETCH before it in this cycle (R117). Safe: the spec says such a host has no move. -/
  | executeWithoutFetch
  /-- Raised by LOAD of more than 65536 bytes (R56). Safe: the spec refuses it. -/
  | imageTooLong
  deriving DecidableEq, Repr

/-- The state at power-up (R231): memory all zero (R55), registers and flags unspecified (R33): free values (log 6). -/
def State.powerUp (p : Config.Params) : State :=
  { regs :=
      { r0 := Config.powerUpReg .r0, r1 := Config.powerUpReg .r1, r2 := Config.powerUpReg .r2
        r3 := Config.powerUpReg .r3, ac := Config.powerUpReg .ac, sp := Config.powerUpReg .sp
        bp := Config.powerUpReg .bp, pc := Config.powerUpReg .pc, ir := Config.powerUpReg .ir }
    halted := Config.powerUpHalted
    errored := Config.powerUpErrored
    mem := []
    params := p
    phase := .powerUp
    draws := 0 }

/-- The machine right after reset: power-up memory with nothing loaded (R55), then INIT(initialSP, initialPC), every
field at the value of R32's table. The launch values and the parameters are the model's choice (log 1 to 4). -/
def State.reset : State :=
  { regs :=
      { r0 := 0x0000#16, r1 := 0x0000#16, r2 := 0x0000#16, r3 := 0x0000#16
        ac := 0x0000#16
        sp := Config.initialSP
        bp := Config.initialSP - 2#16
        pc := Config.initialPC
        ir := 0x0000#16 }
    halted := false
    errored := false
    mem := []
    params := Config.defaultParams
    phase := .ready
    draws := 0 }

end Sys2Proof.Machine
end

