-- ==== Sys2Proof/Machine/Flags.lean ====
section
/-! DEFINITION. The two sticky flags and the two tests of AC. There are no condition codes: a conditional jump tests the
accumulator itself (spec 10_state.md R24 to R26). -/

namespace Sys2Proof.Machine

/-- `halted <- 1` (R24, R130). -/
def State.setHalted (s : State) : State := { s with halted := true }

/-- `errored <- 1`: the machine's only error effect. It stops nothing, saves nothing and enters no handler (R25, R121,
R200 to R202). -/
def State.setErrored (s : State) : State := { s with errored := true }

/-- The value is zero: jump-if-zero's test of AC (R181). -/
def isZero (v : Word) : Bool := v == 0x0000#16

/-- The value read as signed is below zero, which is its bit 15 (R182, R9, D14). -/
def isNegative (v : Word) : Bool := v.getLsbD 15

end Sys2Proof.Machine
end

