-- ==== Sys2Proof/Machine/Ops.lean ====
section
/-! DEFINITION. The named operations over registers and memory that every meaning is built from: register access (spec
00_scope.md R11), word access (20_memory.md R52 to R54), the draw of R94, INIT (70_reset_and_hazards.md R230), LOAD
(20_memory.md R56), fetch (40_cycle.md R118) and the effect of an illegal word (R121), the one error effect there is:
the machine has no trap to take and none to return from (60_exceptions.md R200, R206, R207). -/

namespace Sys2Proof.Machine

/-- What running an instruction answers. -/
abbrev Result := Host.Outcome State Fault Refusal

/-- Go on with a value, or stop with the fault that kept it from being read or written. -/
def orFault {α σ : Type} (x : Except Fault α) (k : α → Host.Outcome σ Fault Refusal) : Host.Outcome σ Fault Refusal :=
  match x with
  | .ok v => k v
  | .error f => .fault f

/-! ## Registers (R11, R20, R23) -/

/-- `x[r]`. -/
def RegFile.get (f : RegFile) : Reg → Word
  | .r0 => f.r0
  | .r1 => f.r1
  | .r2 => f.r2
  | .r3 => f.r3
  | .ac => f.ac
  | .sp => f.sp
  | .bp => f.bp
  | .pc => f.pc
  | .ir => f.ir

/-- `x[r] <- v`. -/
def RegFile.set (f : RegFile) (r : Reg) (v : Word) : RegFile :=
  match r with
  | .r0 => { f with r0 := v }
  | .r1 => { f with r1 := v }
  | .r2 => { f with r2 := v }
  | .r3 => { f with r3 := v }
  | .ac => { f with ac := v }
  | .sp => { f with sp := v }
  | .bp => { f with bp := v }
  | .pc => { f with pc := v }
  | .ir => { f with ir := v }

/-- `x[r]`; also the host's `getRegister(name)`, which has no effect (R11, R23). -/
def State.reg (s : State) (r : Reg) : Word := s.regs.get r

/-- `x[r] <- v` (R11). -/
def State.setReg (s : State) (r : Reg) (v : Word) : State := { s with regs := s.regs.set r v }

/-- The draw of `LEGACY_REGB = unknown`: any 16-bit value, a fresh one each time (R94; log 5). -/
def State.draw (s : State) : Word := Config.legacyDraw s.draws

/-- The state after a draw is taken. -/
def State.afterDraw (s : State) : State := { s with draws := s.draws + 1 }

/-! ## Memory (R50 to R54, R57 to R62) -/

/-- The byte at address `a` (`MemRead(a, 1)`, R12, R57). -/
def State.byteAt (s : State) (a : Word) : Byte := s.mem.readByte a.toNat

/-- The address of a word's second byte: the next address, and at 0xFFFF what `EDGE_WORD` says (R52, R54). -/
def secondAddr (e : Config.EdgeWord) (a : Word) : Option Word :=
  match e with
  | .wrap => some (a + 1#16)
  | .fault => if a = 0xFFFF#16 then none else some (a + 1#16)

/-- `MemRead(a, 2)`: big-endian, no alignment rule, no effect on state (R52, R54, R59, R61). -/
def State.readWord (s : State) (why : Access) (a : Word) : Except Fault Word :=
  match secondAddr s.params.edgeWord a with
  | some a' => .ok (joinBytes (s.byteAt a) (s.byteAt a'))
  | none => .error (.wordAtTop why)

/-- The state with the byte at `a` set (`MemWrite(a, 1, b)`, R12, R57). -/
def State.putByte (s : State) (a : Word) (b : Byte) : State := { s with mem := s.mem.writeByte a.toNat b }

/-- `MemWrite(a, 2, v)`: the high byte at `a`, the low byte at the second address; refused whole at 0xFFFF when
`EDGE_WORD = fault` (R53, R54, R59). -/
def State.writeWord (s : State) (why : Access) (a v : Word) : Except Fault State :=
  match secondAddr s.params.edgeWord a with
  | some a' => .ok ((s.putByte a (highByte v)).putByte a' (lowByte v))
  | none => .error (.wordAtTop why)

/-! ## Illegal words (R121) -/

/-- The effect of a word that matches no defined pair: `errored <- 1` and nothing else. -/
def State.illegalWord (s : State) : State := s.setErrored

/-! ## Fetch (R118) -/

/-- The fetch phase of a cycle: nothing if halted; otherwise the word at PC goes to IR and PC advances by 2. It sets
no flag; it faults only for `EDGE_WORD = fault` with PC = 0xFFFF. -/
def fetch (s : State) : Except Fault State :=
  if s.halted then .ok s
  else
    match s.readWord .fetch (s.reg .pc) with
    | .error f => .error f
    | .ok w =>
      let s1 := s.setReg .ir w
      .ok (s1.setReg .pc (s1.reg .pc + 2#16))

/-! ## INIT and LOAD (R230, R56) -/

/-- The register values INIT(sp, pc) leaves (R230, R32). -/
def initRegs (sp pc : Word) : RegFile :=
  { r0 := 0x0000#16, r1 := 0x0000#16, r2 := 0x0000#16, r3 := 0x0000#16
    ac := 0x0000#16
    sp := sp
    bp := sp - 2#16
    pc := pc
    ir := 0x0000#16 }

/-- INIT(sp, pc): every register set, both flags cleared, memory kept (R230, R232). -/
def State.hostInit (s : State) (sp pc : Word) : State :=
  { s with regs := initRegs sp pc, halted := false, errored := false, phase := .ready }

/-- LOAD(bytes): byte i of the image goes to address i; the bytes beyond it stay (R56). -/
def State.hostLoad (s : State) (image : List Byte) : State := { s with mem := s.mem.writeBytes 0 image }

end Sys2Proof.Machine
end

