-- ==== Sys2Proof/Machine/RegMap.lean ====
section
/-! DEFINITION. Register selection by a 3-bit field (spec 10_state.md R21, 30_encoding.md R93). -/

namespace Sys2Proof

/-- `REG_MAP(f)`: the register that field value `f` selects (R21). -/
def regOf (p : Config.Params) (f : RegField) : Reg :=
  p.regMap.get f.toFin

/-- The eight values of a register field. -/
def regFields : List RegField := [0#3, 1#3, 2#3, 3#3, 4#3, 5#3, 6#3, 7#3]

/-- The lowest field value that selects register `r`, if any: how an assembler names a register (R21, R99). -/
def fieldOf (p : Config.Params) (r : Reg) : Option RegField :=
  regFields.find? fun f => regOf p f = r

end Sys2Proof
end

