-- ==== Sys2Proof/Machine/Operands.lean ====
section
/-! DEFINITION. Operands: extended immediates and addresses, registers named by a field, effective addresses (spec
30_encoding.md R89 to R93, 00_scope.md R10). -/

namespace Sys2Proof.Machine

/-- `sext_16(imm8)`: 0x80..0xFF are −128..−1 (R10, R89). -/
def sextImm8 (v : BitVec 8) : Word := v.signExtend 16

/-- `sext_16(off5)`: 0x10..0x1F are −16..−1; the offset is in bytes, not scaled (R10, R91). -/
def sextOff5 (v : BitVec 5) : Word := v.signExtend 16

/-- `zext_16(addr8)`: absolute addresses reach 0x0000..0x00FF (R90). -/
def zextAddr8 (v : BitVec 8) : Word := v.zeroExtend 16

/-- `T = zext_16(t12)`: an absolute byte address 0x0000..0x0FFF (R92). -/
def zextTarget (v : BitVec 12) : Word := v.zeroExtend 16

/-- The register that field value `f` selects in this machine: `REG_MAP(f)` (R21, R93). -/
def State.named (s : State) (f : RegField) : Reg := regOf s.params f

/-- `x[REG_MAP(f)]` (R11). -/
def State.fieldReg (s : State) (f : RegField) : Word := s.reg (s.named f)

/-- A write of IR through a register field: what R11 says of it and what R22 and 40_cycle.md R119 say differ, so the
parameter `irByField` decides (log 15). -/
def State.setIrByField (s : State) (v : Word) : State :=
  match s.params.irByField with
  | .kept => s
  | .written => s.setReg .ir v

/-- `x[REG_MAP(f)] <- v` (R11), the one register write through a field that execute has. -/
def State.setFieldReg (s : State) (f : RegField) (v : Word) : State :=
  if s.named f = .ir then s.setIrByField v else s.setReg (s.named f) v

/-- The effective address of the indexed forms: base register plus offset, modulo 2^16 (R143, R51). -/
def State.indexedAddr (s : State) (regB : RegField) (off5 : BitVec 5) : Word := s.fieldReg regB + sextOff5 off5

end Sys2Proof.Machine
end

