-- ==== Sys2Proof/Machine/Flow.lean ====
section
/-! DEFINITION. The flow class: halt, nop, return, error and the illegal sub-opcodes 100 to 111 (spec 41_flow.md). -/

namespace Sys2Proof.Machine

/-- halt: `halted <- 1`; PC is not rewound (R130). -/
def execHalt (s : State) : Result := .next s.setHalted

/-- nop: no effect (R131). -/
def execNop (s : State) : Result := .next s

/-- return: `SP <- BP; BP <- word@SP; SP <- SP - 2; PC <- word@SP`, in order (R132). -/
def execRet (s : State) : Result :=
  let s1 := s.setReg .sp (s.reg .bp)
  orFault (s1.readWord .pop (s1.reg .sp)) fun savedBP =>
    let s2 := s1.setReg .bp savedBP
    let s3 := s2.setReg .sp (s2.reg .sp - 2#16)
    orFault (s3.readWord .pop (s3.reg .sp)) fun returnAddr => .next (s3.setReg .pc returnAddr)

/-- error: `errored <- 1`; execution goes on (R133). -/
def execError (s : State) : Result := .next s.setErrored

/-- Flow sub-opcode 100: an illegal word (R134, R121). -/
def execIllegalFlow100 (s : State) : Result := .next s.illegalWord

/-- Flow sub-opcode 101: an illegal word (R134, R121). -/
def execIllegalFlow101 (s : State) : Result := .next s.illegalWord

/-- Flow sub-opcode 110: an illegal word (R134, R121). -/
def execIllegalFlow110 (s : State) : Result := .next s.illegalWord

/-- Flow sub-opcode 111: an illegal word (R134, R121). -/
def execIllegalFlow111 (s : State) : Result := .next s.illegalWord

end Sys2Proof.Machine
end

