-- ==== Sys2Proof/Machine/Jump.lean ====
section
/-! DEFINITION. The jump class: absolute jumps and call (spec 44_jump.md). The target is `zext_16(t12)`; there are no
delay slots and targets need no alignment. -/

namespace Sys2Proof.Machine

/-- `PC <- T`. -/
def State.jumpTo (s : State) (t12 : BitVec 12) : State := s.setReg .pc (zextTarget t12)

/-- jump: `PC <- T` (R180). -/
def execJump (t12 : BitVec 12) (s : State) : Result := .next (s.jumpTo t12)

/-- jump-if-zero: `if AC = 0x0000: PC <- T` (R181). -/
def execJumpIfZero (t12 : BitVec 12) (s : State) : Result :=
  .next (if isZero (s.reg .ac) then s.jumpTo t12 else s)

/-- jump-if-negative: `if AC[15] = 1: PC <- T` (R182). -/
def execJumpIfNegative (t12 : BitVec 12) (s : State) : Result :=
  .next (if isNegative (s.reg .ac) then s.jumpTo t12 else s)

/-- call: `word@SP <- PC; SP <- SP + 2; PC <- T; word@SP <- BP; BP <- SP; SP <- SP + 2`, in order (R183). -/
def execCall (t12 : BitVec 12) (s : State) : Result :=
  orFault (s.writeWord .push (s.reg .sp) (s.reg .pc)) fun s1 =>
    let s2 := s1.setReg .sp (s1.reg .sp + 2#16)
    let s3 := s2.jumpTo t12
    orFault (s3.writeWord .push (s3.reg .sp) (s3.reg .bp)) fun s4 =>
      let s5 := s4.setReg .bp (s4.reg .sp)
      .next (s5.setReg .sp (s5.reg .sp + 2#16))

end Sys2Proof.Machine
end

