-- ==== Sys2Proof/Machine/Manipulate.lean ====
section
/-! DEFINITION. The manipulate class: arithmetic into AC, move, and the illegal sub-opcodes 101 and 110 (spec
43_manipulate.md). Arithmetic is modulo 2^16, with no flag and no trap on overflow; no memory is accessed. -/

namespace Sys2Proof.Machine

/-- `AC <- v`. -/
def State.setAC (s : State) (v : Word) : State := s.setReg .ac v

/-- The two-register arithmetic forms: `AC <- op x[regA] x[regB]`, or a draw when the machine's `LEGACY_REGB` is
`unknown` (R94, R161, R163). -/
def arithRegister (op : Word → Word → Word) (regA regB : RegField) (s : State) : Result :=
  match s.params.legacyRegB with
  | .intended => .next (s.setAC (op (s.fieldReg regA) (s.fieldReg regB)))
  | .unknown => .next (s.afterDraw.setAC s.draw)

/-- negate: `AC <- 0 - x[regA]` (R160). -/
def execNegate (regA : RegField) (s : State) : Result := .next (s.setAC (0x0000#16 - s.fieldReg regA))

/-- add-register: `AC <- x[regA] + x[regB]` (R161). -/
def execAddRegister (regA regB : RegField) (s : State) : Result := arithRegister (fun x y => x + y) regA regB s

/-- add-immediate: `AC <- x[regA] + sext_16(imm8)` (R162). -/
def execAddImmediate (regA : RegField) (imm8 : BitVec 8) (s : State) : Result :=
  .next (s.setAC (s.fieldReg regA + sextImm8 imm8))

/-- subtract-register: `AC <- x[regA] - x[regB]` (R163). -/
def execSubtractRegister (regA regB : RegField) (s : State) : Result := arithRegister (fun x y => x - y) regA regB s

/-- subtract-immediate: `AC <- x[regA] - sext_16(imm8)` (R164). -/
def execSubtractImmediate (regA : RegField) (imm8 : BitVec 8) (s : State) : Result :=
  .next (s.setAC (s.fieldReg regA - sextImm8 imm8))

/-- Manipulate sub-opcode 101: an illegal word (R166, R121). -/
def execIllegalManipulate101 (s : State) : Result := .next s.illegalWord

/-- Manipulate sub-opcode 110: an illegal word (R166, R121). -/
def execIllegalManipulate110 (s : State) : Result := .next s.illegalWord

/-- move: `x[regB] <- x[regA]` (R165). -/
def execMove (regA regB : RegField) (s : State) : Result := .next (s.setFieldReg regB (s.fieldReg regA))

end Sys2Proof.Machine
end

