-- ==== Sys2Proof/Machine/Transfer.lean ====
section
/-! DEFINITION. The transfer class: loads, stores and the illegal sub-opcode 111 (spec 42_transfer.md). Every load and
store moves one big-endian word; addresses are modulo 2^16; no base register is updated; no flag is written. -/

namespace Sys2Proof.Machine

/-- A load: `x[regA] <- MemRead(a, 2)`. The address was computed before the register is written (R13). -/
def loadFrom (s : State) (regA : RegField) (a : Word) : Result :=
  orFault (s.readWord .load a) fun v => .next (s.setFieldReg regA v)

/-- A store: `MemWrite(a, 2, x[regA])`. -/
def storeTo (s : State) (regA : RegField) (a : Word) : Result :=
  orFault (s.writeWord .store a (s.fieldReg regA)) fun s' => .next s'

/-- load-immediate: `x[regA] <- sext_16(imm8)` (R140). -/
def execLoadImmediate (regA : RegField) (imm8 : BitVec 8) (s : State) : Result :=
  .next (s.setFieldReg regA (sextImm8 imm8))

/-- load-absolute: `x[regA] <- MemRead(zext_16(addr8), 2)` (R141). -/
def execLoadAbsolute (regA : RegField) (addr8 : BitVec 8) (s : State) : Result :=
  loadFrom s regA (zextAddr8 addr8)

/-- load-indirect: `x[regA] <- MemRead(x[regB], 2)` (R142). -/
def execLoadIndirect (regA regB : RegField) (s : State) : Result :=
  loadFrom s regA (s.fieldReg regB)

/-- load-indexed: `x[regA] <- MemRead(x[regB] + sext_16(off5), 2)` (R143). -/
def execLoadIndexed (regA regB : RegField) (off5 : BitVec 5) (s : State) : Result :=
  loadFrom s regA (s.indexedAddr regB off5)

/-- store-absolute: `MemWrite(zext_16(addr8), 2, x[regA])` (R144). -/
def execStoreAbsolute (regA : RegField) (addr8 : BitVec 8) (s : State) : Result :=
  storeTo s regA (zextAddr8 addr8)

/-- store-indirect: `MemWrite(x[regB], 2, x[regA])` (R145). -/
def execStoreIndirect (regA regB : RegField) (s : State) : Result :=
  storeTo s regA (s.fieldReg regB)

/-- store-indexed: `MemWrite(x[regB] + sext_16(off5), 2, x[regA])` (R146). -/
def execStoreIndexed (regA regB : RegField) (off5 : BitVec 5) (s : State) : Result :=
  storeTo s regA (s.indexedAddr regB off5)

/-- Transfer sub-opcode 111: an illegal word (R147, R121). -/
def execIllegalTransfer111 (s : State) : Result := .next s.illegalWord

end Sys2Proof.Machine
end

