-- ==== Sys2Proof/Machine/Dispatch.lean ====
section
/-! DEFINITION. `Perform` of spec 40_cycle.md R119: one arm per row of the opcode map (30_encoding.md R95). -/

namespace Sys2Proof.Machine

def exec (i : Instr) (s : State) : Host.Outcome State Fault Refusal :=
  match i with
  | .halt => Sys2Proof.Machine.execHalt s
  | .nop => Sys2Proof.Machine.execNop s
  | .ret => Sys2Proof.Machine.execRet s
  | .error => Sys2Proof.Machine.execError s
  | .illegalFlow100 => Sys2Proof.Machine.execIllegalFlow100 s
  | .illegalFlow101 => Sys2Proof.Machine.execIllegalFlow101 s
  | .illegalFlow110 => Sys2Proof.Machine.execIllegalFlow110 s
  | .illegalFlow111 => Sys2Proof.Machine.execIllegalFlow111 s
  | .loadImmediate regA imm8 => Sys2Proof.Machine.execLoadImmediate regA imm8 s
  | .loadAbsolute regA addr8 => Sys2Proof.Machine.execLoadAbsolute regA addr8 s
  | .loadIndirect regA regB => Sys2Proof.Machine.execLoadIndirect regA regB s
  | .loadIndexed regA regB off5 => Sys2Proof.Machine.execLoadIndexed regA regB off5 s
  | .storeAbsolute regA addr8 => Sys2Proof.Machine.execStoreAbsolute regA addr8 s
  | .storeIndirect regA regB => Sys2Proof.Machine.execStoreIndirect regA regB s
  | .storeIndexed regA regB off5 => Sys2Proof.Machine.execStoreIndexed regA regB off5 s
  | .illegalTransfer111 => Sys2Proof.Machine.execIllegalTransfer111 s
  | .negate regA => Sys2Proof.Machine.execNegate regA s
  | .addRegister regA regB => Sys2Proof.Machine.execAddRegister regA regB s
  | .addImmediate regA imm8 => Sys2Proof.Machine.execAddImmediate regA imm8 s
  | .subtractRegister regA regB => Sys2Proof.Machine.execSubtractRegister regA regB s
  | .subtractImmediate regA imm8 => Sys2Proof.Machine.execSubtractImmediate regA imm8 s
  | .illegalManipulate101 => Sys2Proof.Machine.execIllegalManipulate101 s
  | .illegalManipulate110 => Sys2Proof.Machine.execIllegalManipulate110 s
  | .move regA regB => Sys2Proof.Machine.execMove regA regB s
  | .jump t12 => Sys2Proof.Machine.execJump t12 s
  | .jumpIfZero t12 => Sys2Proof.Machine.execJumpIfZero t12 s
  | .jumpIfNegative t12 => Sys2Proof.Machine.execJumpIfNegative t12 s
  | .call t12 => Sys2Proof.Machine.execCall t12 s

end Sys2Proof.Machine
end

