-- ==== Sys2Proof/Machine/Cycle.lean ====
section
/-! DEFINITION. The execute phase and the cycle: one fetch, then one execute (spec 40_cycle.md R119, R123). -/

namespace Sys2Proof.Machine

/-- The execute phase: nothing if halted; otherwise IR is decoded and its one effect performed (R119). An illegal word
is an arm of `exec` (R121). -/
def execute (s : State) : Result :=
  if s.halted then .next s else exec (decode (s.reg .ir)) s

/-- `Step` of R123: a halted state stays; otherwise fetch, then execute; if fetch faults, execute does not run (R204). -/
def cycle (s : State) : Result :=
  if s.halted then .next s else orFault (fetch s) execute

/-- Where a step starts, by the host's phase (R117): a cycle runs only between cycles, after the first INIT. -/
def stepFrom (s : State) : Result :=
  match s.phase with
  | .ready => cycle s
  | .powerUp => .refused .beforeInit
  | .fetched => .refused .midCycle

/-- The state with the instruction word `w` at the program counter, high byte first, and able to fetch it: not halted,
between cycles. Under `EDGE_WORD = fault` no word can be fetched at PC = 0xFFFF (R54), whatever stands there. -/
def State.placeWord (s : State) (w : Word) : State :=
  let s1 := (s.putByte (s.reg .pc) (highByte w)).putByte (s.reg .pc + 1#16) (lowByte w)
  { s1 with halted := false, phase := .ready }

end Sys2Proof.Machine
end

