-- ==== Sys2Proof/Machine/Step.lean ====
section
/-! DEFINITION. One step of the machine: one cycle (spec 40_cycle.md R123), and the host's way to place an instruction
where the step fetches it. -/

namespace Sys2Proof.Machine

/-- One step: one whole cycle, refused before the first INIT and between a FETCH and its EXECUTE (R117, R123). -/
def step (s : State) : Host.Outcome State Fault Refusal := stepFrom s

/-- The state with an opcode-table row's bits stored at the program counter, so that the next step runs it. -/
def State.withFetchWord (s : State) (nbits w : Nat) : State := s.placeWord (tableWord nbits w)

end Sys2Proof.Machine
end

