-- ==== Sys2Proof/WellFormed.lean ====
section
/-! DEFINITION. Well-formedness. Two checks, because `Instr`'s operand types already carry the field widths:
which constructors are defined instructions and which the closed set of illegal encodings (30_encoding.md R95, R97),
and the operand ranges of the assembler form (R99), whose operands are registers by name and plain numbers. -/

namespace Sys2Proof

/-- The instruction is one of the 21 defined (class, sub-opcode) pairs; the seven illegal rows of R97 are refused. -/
def Instr.isDefined : Instr → Bool
  | .illegalFlow100 | .illegalFlow101 | .illegalFlow110 | .illegalFlow111 => false
  | .illegalTransfer111 | .illegalManipulate101 | .illegalManipulate110 => false
  | .halt | .nop | .ret | .error => true
  | .loadImmediate .. | .loadAbsolute .. | .loadIndirect .. | .loadIndexed .. => true
  | .storeAbsolute .. | .storeIndirect .. | .storeIndexed .. => true
  | .negate .. | .addRegister .. | .addImmediate .. => true
  | .subtractRegister .. | .subtractImmediate .. | .move .. => true
  | .jump .. | .jumpIfZero .. | .jumpIfNegative .. | .call .. => true

/-- One line of the spec's assembler syntax (R99), its operands parsed: registers by name, numbers unbounded.
`move`'s operands are source then destination. -/
inductive Asm where
  | halt
  | nop
  | ret
  | error
  | loadImmediate (rA : Reg) (imm : Int)
  | loadAbsolute (rA : Reg) (addr : Nat)
  | loadIndirect (rA rB : Reg)
  | loadIndexed (rA rB : Reg) (off : Int)
  | storeAbsolute (rA : Reg) (addr : Nat)
  | storeIndirect (rA rB : Reg)
  | storeIndexed (rA rB : Reg) (off : Int)
  | negate (rA : Reg)
  | addRegister (rA rB : Reg)
  | addImmediate (rA : Reg) (imm : Int)
  | subtractRegister (rA rB : Reg)
  | subtractImmediate (rA : Reg) (imm : Int)
  | move (rA rB : Reg)
  | jump (target : Nat)
  | jumpIfZero (target : Nat)
  | jumpIfNegative (target : Nat)
  | call (target : Nat)
  deriving DecidableEq, Repr

/-- The register names of the assembler: R0 to R3, AC, SP, BP, PC, and no IR (R99). -/
def asmRegisters : List Reg := [.r0, .r1, .r2, .r3, .ac, .sp, .bp, .pc]

/-- The register has an assembler name, and some field value selects it under the machine's `REG_MAP` (R99, R21; that a
register no field value selects is refused is the model's, log 16). -/
def regNameable (p : Config.Params) (r : Reg) : Bool := decide (r ∈ asmRegisters) && (fieldOf p r).isSome

/-- An immediate is −128..255; 128..255 is stored as the byte (R99). -/
def immInRange (imm : Int) : Bool := decide (-128 ≤ imm ∧ imm ≤ 255)

/-- An absolute address is 0..255 (R99). -/
def addrInRange (addr : Nat) : Bool := decide (addr ≤ 255)

/-- An index offset is −16..15 (R99). -/
def offInRange (off : Int) : Bool := decide (-16 ≤ off ∧ off ≤ 15)

/-- A jump target is 0..0xFFF (R99). -/
def targetInRange (target : Nat) : Bool := decide (target ≤ 0xFFF)

/-- Every operand of the line is in the range R99 gives it. -/
def Asm.wellFormed (p : Config.Params) : Asm → Bool
  | .halt | .nop | .ret | .error => true
  | .loadImmediate a imm | .addImmediate a imm | .subtractImmediate a imm => regNameable p a && immInRange imm
  | .loadAbsolute a addr | .storeAbsolute a addr => regNameable p a && addrInRange addr
  | .loadIndirect a b | .storeIndirect a b => regNameable p a && regNameable p b
  | .loadIndexed a b off | .storeIndexed a b off => regNameable p a && regNameable p b && offInRange off
  | .negate a => regNameable p a
  | .addRegister a b | .subtractRegister a b | .move a b => regNameable p a && regNameable p b
  | .jump t | .jumpIfZero t | .jumpIfNegative t | .call t => targetInRange t

end Sys2Proof
end

