-- ==== Sys2Proof/Machine/Assembler.lean ====
section
/-! DEFINITION. The assembler syntax of spec 30_encoding.md R99, the spec's own choice for its examples: assembling a line,
printing it, and reading lines of text. No step depends on it. -/

namespace Sys2Proof

/-! ## Assembler form to instruction (R99) -/

/-- Assemble one line whose operands are in range; none where `Asm.wellFormed` refuses the line (R99). -/
def assemble (p : Config.Params) (l : Asm) : Option Instr :=
  if l.wellFormed p then
    match l with
    | .halt => some .halt
    | .nop => some .nop
    | .ret => some .ret
    | .error => some .error
    | .loadImmediate a imm => (fieldOf p a).map fun f => .loadImmediate f (BitVec.ofInt 8 imm)
    | .loadAbsolute a addr => (fieldOf p a).map fun f => .loadAbsolute f (BitVec.ofNat 8 addr)
    | .loadIndirect a b => (fieldOf p a).bind fun f => (fieldOf p b).map fun g => .loadIndirect f g
    | .loadIndexed a b off =>
      (fieldOf p a).bind fun f => (fieldOf p b).map fun g => .loadIndexed f g (BitVec.ofInt 5 off)
    | .storeAbsolute a addr => (fieldOf p a).map fun f => .storeAbsolute f (BitVec.ofNat 8 addr)
    | .storeIndirect a b => (fieldOf p a).bind fun f => (fieldOf p b).map fun g => .storeIndirect f g
    | .storeIndexed a b off =>
      (fieldOf p a).bind fun f => (fieldOf p b).map fun g => .storeIndexed f g (BitVec.ofInt 5 off)
    | .negate a => (fieldOf p a).map fun f => .negate f
    | .addRegister a b => (fieldOf p a).bind fun f => (fieldOf p b).map fun g => .addRegister f g
    | .addImmediate a imm => (fieldOf p a).map fun f => .addImmediate f (BitVec.ofInt 8 imm)
    | .subtractRegister a b => (fieldOf p a).bind fun f => (fieldOf p b).map fun g => .subtractRegister f g
    | .subtractImmediate a imm => (fieldOf p a).map fun f => .subtractImmediate f (BitVec.ofInt 8 imm)
    | .move a b => (fieldOf p a).bind fun f => (fieldOf p b).map fun g => .move f g
    | .jump t => some (.jump (BitVec.ofNat 12 t))
    | .jumpIfZero t => some (.jumpIfZero (BitVec.ofNat 12 t))
    | .jumpIfNegative t => some (.jumpIfNegative (BitVec.ofNat 12 t))
    | .call t => some (.call (BitVec.ofNat 12 t))
  else none

/-! ## The assembler's spelling of a line (R99) -/

/-- The line's mnemonic, the first column of R99's table. -/
def Asm.mnemonic : Asm → String
  | .halt => "halt"
  | .nop => "nop"
  | .ret => "return"
  | .error => "error"
  | .loadImmediate .. => "load-immediate"
  | .loadAbsolute .. => "load-absolute"
  | .loadIndirect .. => "load-indirect"
  | .loadIndexed .. => "load-indexed"
  | .storeAbsolute .. => "store-absolute"
  | .storeIndirect .. => "store-indirect"
  | .storeIndexed .. => "store-indexed"
  | .negate .. => "negate"
  | .addRegister .. => "add-register"
  | .addImmediate .. => "add-immediate"
  | .subtractRegister .. => "subtract-register"
  | .subtractImmediate .. => "subtract-immediate"
  | .move .. => "move"
  | .jump .. => "jump"
  | .jumpIfZero .. => "jump-if-zero"
  | .jumpIfNegative .. => "jump-if-negative"
  | .call .. => "call"

/-- The short name R99 gives the mnemonic as its second spelling (the empty string where it gives none). -/
def Asm.shortName : Asm → String
  | .halt => ""
  | .nop => ""
  | .ret => "ret"
  | .error => ""
  | .loadImmediate .. => "ldi"
  | .loadAbsolute .. => "lda"
  | .loadIndirect .. => "ldn"
  | .loadIndexed .. => "ldx"
  | .storeAbsolute .. => "sta"
  | .storeIndirect .. => "stn"
  | .storeIndexed .. => "stx"
  | .negate .. => "neg"
  | .addRegister .. => "add"
  | .addImmediate .. => "addi"
  | .subtractRegister .. => "sub"
  | .subtractImmediate .. => "subi"
  | .move .. => "mov"
  | .jump .. => "jmp"
  | .jumpIfZero .. => "jmpz"
  | .jumpIfNegative .. => "jmpn"
  | .call .. => ""

/-- A register's name as the assembler writes it (R99). -/
def Reg.text : Reg → String
  | .r0 => "R0"
  | .r1 => "R1"
  | .r2 => "R2"
  | .r3 => "R3"
  | .ac => "AC"
  | .sp => "SP"
  | .bp => "BP"
  | .pc => "PC"
  | .ir => "IR"

/-- A memory operand `[rB]` (R99). -/
def textIndirect (b : Reg) : String := "[" ++ b.text ++ "]"

/-- A memory operand `[rB + off]` or `[rB - off]` (R99). -/
def textIndexed (b : Reg) (off : Int) : String :=
  if off < 0 then "[" ++ b.text ++ " - " ++ toString (-off) ++ "]" else "[" ++ b.text ++ " + " ++ toString off ++ "]"

/-- The line's operands as R99 writes them: separated by commas, numbers in decimal, no label. -/
def Asm.operandText : Asm → String
  | .halt | .nop | .ret | .error => ""
  | .loadImmediate a imm | .addImmediate a imm | .subtractImmediate a imm => a.text ++ ", " ++ toString imm
  | .loadAbsolute a addr | .storeAbsolute a addr => a.text ++ ", " ++ toString addr
  | .loadIndirect a b | .storeIndirect a b => a.text ++ ", " ++ textIndirect b
  | .loadIndexed a b off | .storeIndexed a b off => a.text ++ ", " ++ textIndexed b off
  | .negate a => a.text
  | .addRegister a b | .subtractRegister a b | .move a b => a.text ++ ", " ++ b.text
  | .jump t | .jumpIfZero t | .jumpIfNegative t | .call t => toString t

/-- The line as text: the mnemonic, then its operands (R99). -/
def Asm.text (l : Asm) : String :=
  if l.operandText = "" then l.mnemonic else l.mnemonic ++ " " ++ l.operandText

/-! ## Reading lines of text (R99): one instruction per line, mnemonic then operands separated by commas -/

/-- The text without spaces at either end. -/
def trimText (cs : List Char) : List Char :=
  ((cs.dropWhile fun c => c == ' ').reverse.dropWhile fun c => c == ' ').reverse

/-- The parts of the text between occurrences of a character; never empty. -/
def splitText (sep : Char) : List Char → List (List Char)
  | [] => [[]]
  | c :: rest =>
    if c == sep then [] :: splitText sep rest
    else
      match splitText sep rest with
      | [] => [[c]]
      | first :: others => (c :: first) :: others

/-- The value of a decimal or hexadecimal digit. -/
def digitValue (c : Char) : Option Nat :=
  if '0' ≤ c ∧ c ≤ '9' then some (c.toNat - '0'.toNat)
  else if 'a' ≤ c ∧ c ≤ 'f' then some (c.toNat - 'a'.toNat + 10)
  else if 'A' ≤ c ∧ c ≤ 'F' then some (c.toNat - 'A'.toNat + 10)
  else none

/-- The number that digits of a base write, after the digits already read. -/
def readDigits (base : Nat) : Nat → List Char → Option Nat
  | acc, [] => some acc
  | acc, c :: rest =>
    match digitValue c with
    | some d => if d < base then readDigits base (acc * base + d) rest else none
    | none => none

/-- A number, decimal or `0x` hex (R99). -/
def readNat : List Char → Option Nat
  | '0' :: 'x' :: c :: rest => readDigits 16 0 (c :: rest)
  | c :: rest => readDigits 10 0 (c :: rest)
  | [] => none

/-- A number with an optional minus sign. -/
def readInt : List Char → Option Int
  | '-' :: rest => (readNat rest).map fun n => -(n : Int)
  | cs => (readNat cs).map fun n => (n : Int)

/-- A register by name: R0 to R3, AC, SP, BP, PC (R99; IR is no operand). -/
def readReg : List Char → Option Reg
  | ['R', '0'] => some .r0
  | ['R', '1'] => some .r1
  | ['R', '2'] => some .r2
  | ['R', '3'] => some .r3
  | ['A', 'C'] => some .ac
  | ['S', 'P'] => some .sp
  | ['B', 'P'] => some .bp
  | ['P', 'C'] => some .pc
  | _ => none

/-- One operand as read. -/
inductive Operand where
  | reg (r : Reg)
  | num (n : Int)
  /-- `[rB]` -/
  | indirect (b : Reg)
  /-- `[rB + off]` or `[rB - off]` -/
  | indexed (b : Reg) (off : Int)
  deriving DecidableEq, Repr

/-- What stands between the brackets of a memory operand. -/
def readMemory (cs : List Char) : Option Operand :=
  let name := cs.takeWhile fun c => c != ' ' && c != '+' && c != '-'
  match readReg name, trimText (cs.drop name.length) with
  | some b, [] => some (.indirect b)
  | some b, '+' :: off => (readNat (trimText off)).map fun n => .indexed b n
  | some b, '-' :: off => (readNat (trimText off)).map fun n => .indexed b (-(n : Int))
  | _, _ => none

/-- The labels of a program with their addresses. -/
abbrev LabelTable := List (List Char × Nat)

/-- One operand: a memory operand, a register, a number, or a label, which stands for its address and may be given for
any number. DESIGN CHOICE (log 16): R99 gives labels as `name:` alone; a name spelled like a register or a number is read
as that register or number, and of a label defined twice the first definition counts. -/
def readOperand (labels : LabelTable) (cs : List Char) : Option Operand :=
  match cs with
  | '[' :: rest =>
    match rest.reverse with
    | ']' :: inner => readMemory (trimText inner.reverse)
    | _ => none
  | _ =>
    match readReg cs, readInt cs, labels.lookup cs with
    | some r, _, _ => some (.reg r)
    | none, some n, _ => some (.num n)
    | none, none, some a => some (.num a)
    | none, none, none => none

/-- The mnemonic is this name or this short name. -/
def namedBy (m : List Char) (name short : String) : Bool := m == name.toList || m == short.toList

/-- The line a mnemonic (or its short name) and its operands make (R99). -/
def buildAsm (m : List Char) : List Operand → Option Asm
  | [] =>
    if m == "halt".toList then some .halt
    else if m == "nop".toList then some .nop
    else if namedBy m "return" "ret" then some .ret
    else if m == "error".toList then some .error
    else none
  | [.reg a] => if namedBy m "negate" "neg" then some (.negate a) else none
  | [.num t] =>
    if t < 0 then none
    else if namedBy m "jump" "jmp" then some (.jump t.toNat)
    else if namedBy m "jump-if-zero" "jmpz" then some (.jumpIfZero t.toNat)
    else if namedBy m "jump-if-negative" "jmpn" then some (.jumpIfNegative t.toNat)
    else if m == "call".toList then some (.call t.toNat)
    else none
  | [.reg a, .num n] =>
    if namedBy m "load-immediate" "ldi" then some (.loadImmediate a n)
    else if namedBy m "add-immediate" "addi" then some (.addImmediate a n)
    else if namedBy m "subtract-immediate" "subi" then some (.subtractImmediate a n)
    else if n < 0 then none
    else if namedBy m "load-absolute" "lda" then some (.loadAbsolute a n.toNat)
    else if namedBy m "store-absolute" "sta" then some (.storeAbsolute a n.toNat)
    else none
  | [.reg a, .reg b] =>
    if namedBy m "add-register" "add" then some (.addRegister a b)
    else if namedBy m "subtract-register" "sub" then some (.subtractRegister a b)
    else if namedBy m "move" "mov" then some (.move a b)
    else none
  | [.reg a, .indirect b] =>
    if namedBy m "load-indirect" "ldn" then some (.loadIndirect a b)
    else if namedBy m "store-indirect" "stn" then some (.storeIndirect a b)
    else none
  | [.reg a, .indexed b off] =>
    if namedBy m "load-indexed" "ldx" then some (.loadIndexed a b off)
    else if namedBy m "store-indexed" "stx" then some (.storeIndexed a b off)
    else none
  | _ => none

/-- A line's label, if it has one (`name:`), and its instruction text. DESIGN CHOICE (log 16): a label's name is any text
without a colon, and a line with two colons cannot be read. -/
def splitLabel (cs : List Char) : Option (List Char) × List Char :=
  match splitText ':' cs with
  | [label, rest] => (some (trimText label), trimText rest)
  | _ => (none, trimText cs)

/-- The operands' texts: none, or the parts between commas. -/
def operandTexts (cs : List Char) : List (List Char) :=
  if trimText cs = [] then [] else (splitText ',' cs).map trimText

/-- Read one line's instruction text. -/
def readAsm (labels : LabelTable) (cs : List Char) : Option Asm :=
  let m := cs.takeWhile fun c => c != ' '
  ((operandTexts (cs.drop m.length)).mapM (readOperand labels)).bind (buildAsm m)

/-- The labels of the lines in order, each at the address of the next instruction: every instruction is two bytes (R80).
That the first line stands at the address given is the model's (DESIGN CHOICE, log 16). -/
def labelTable : Nat → List (List Char) → LabelTable
  | _, [] => []
  | a, l :: rest =>
    let a' := if (splitLabel l).2 = [] then a else a + 2
    match (splitLabel l).1 with
    | some name => (name, a) :: labelTable a' rest
    | none => labelTable a' rest

/-- Assemble lines of text placed from address 0 to the instructions they stand for; none if a line cannot be read or
an operand is out of range. Empty lines and lines with a label alone stand for nothing. -/
def assembleLines (p : Config.Params) (ls : List String) : Option (List Instr) :=
  let lines := ls.map String.toList
  let labels := labelTable 0 lines
  (lines.filter fun l => (splitLabel l).2 ≠ []).mapM fun l => (readAsm labels (splitLabel l).2).bind (assemble p)

/-- The image of a program: its instructions' bytes in order (R56, R58). -/
def imageOf (is : List Instr) : List Byte := is.flatMap encodeBytes

end Sys2Proof
end

