-- ==== Sys2Proof/Machine/HostPort.lean ====
section
/-! DEFINITION. The block's host interface: its commands, their order, and the surface the front end uses (spec
40_cycle.md R110 to R117, 10_state.md R23, R27). The front end itself is out of scope (00_scope.md R4). -/

namespace Sys2Proof.Machine

/-- The commands of R110, and no others. A word argument is valid by its type (R115). -/
inductive HostCommand where
  /-- INIT(sp, pc) -/
  | hostInit (sp pc : Word)
  /-- LOAD(bytes) -/
  | load (image : List Byte)
  /-- FETCH -/
  | fetch
  /-- EXECUTE -/
  | execute
  /-- READREG(name) -/
  | readReg (r : Reg)
  /-- HALTED? -/
  | isHalted
  /-- ERRORED? -/
  | hasErrored
  /-- READMEM of one byte -/
  | readByte (a : Word)
  /-- READMEM of one word -/
  | readWord (a : Word)
  deriving DecidableEq, Repr

/-- What a command returns to the host. -/
inductive HostReply where
  | none
  | word (v : Word)
  | byte (b : Byte)
  | flag (b : Bool)
  deriving DecidableEq, Repr

/-- What a command answers: the next state and the reply. -/
abbrev CommandResult := Host.Outcome (State × HostReply) Fault Refusal

/-- `getRegister(name)` (R23). -/
def State.getRegister (s : State) (r : Reg) : Word := s.reg r

/-- `isHalted()` (R27). -/
def State.isHalted (s : State) : Bool := s.halted

/-- `hasErrored()` (R27). -/
def State.hasErrored (s : State) : Bool := s.errored

/-- The host acts only between cycles (R111): a command's effect where no FETCH waits for its EXECUTE. -/
def betweenCycles (s : State) (k : CommandResult) : CommandResult :=
  match s.phase with
  | .fetched => .refused .midCycle
  | .powerUp | .ready => k

/-- LOAD: at most 65536 bytes (R56). -/
def commandLoad (image : List Byte) (s : State) : CommandResult :=
  if image.length ≤ Memory.size then .next (s.hostLoad image, .none) else .refused .imageTooLong

/-- FETCH: the first half of a cycle (R117, R118). -/
def commandFetch (s : State) : CommandResult :=
  match s.phase with
  | .powerUp => .refused .beforeInit
  | .fetched => .refused .midCycle
  | .ready => orFault (Sys2Proof.Machine.fetch s) fun s1 => .next ({ s1 with phase := .fetched }, .none)

/-- EXECUTE: the second half of a cycle (R117, R119). -/
def commandExecute (s : State) : CommandResult :=
  match s.phase with
  | .powerUp => .refused .beforeInit
  | .ready => .refused .executeWithoutFetch
  | .fetched =>
    match Sys2Proof.Machine.execute s with
    | .next s1 => .next ({ s1 with phase := .ready }, .none)
    | .fault f => .fault f
    | .refused r => .refused r

/-- One host command (R110). -/
def command (c : HostCommand) (s : State) : CommandResult :=
  match c with
  | .hostInit sp pc => betweenCycles s (.next (s.hostInit sp pc, .none))
  | .load image => betweenCycles s (commandLoad image s)
  | .fetch => commandFetch s
  | .execute => commandExecute s
  | .readReg r => betweenCycles s (.next (s, .word (s.getRegister r)))
  | .isHalted => betweenCycles s (.next (s, .flag s.isHalted))
  | .hasErrored => betweenCycles s (.next (s, .flag s.hasErrored))
  | .readByte a => betweenCycles s (.next (s, .byte (s.byteAt a)))
  | .readWord a => betweenCycles s (orFault (s.readWord .hostRead a) fun v => .next (s, .word v))

/-- A sequence of host commands, with the replies in order; it stops at the first fault or refusal. -/
def commands : List HostCommand → State → Host.Outcome (State × List HostReply) Fault Refusal
  | [], s => .next (s, [])
  | c :: rest, s =>
    match command c s with
    | .fault f => .fault f
    | .refused r => .refused r
    | .next (s1, reply) =>
      match commands rest s1 with
      | .fault f => .fault f
      | .refused r => .refused r
      | .next (s2, replies) => .next (s2, reply :: replies)

/-- The front end's single-cycle step: FETCH then EXECUTE (R112). -/
def singleCycle : List HostCommand := [.fetch, .execute]

/-- The front end's run-to-halt: cycles while HALTED? returns 0, here at most `fuel` of them. The engine itself has
no limit (R112, R113). -/
def runToHalt : Nat → State → Result
  | 0, s => .next s
  | fuel + 1, s =>
    if s.isHalted then .next s
    else
      match step s with
      | .next s1 => runToHalt fuel s1
      | .fault f => .fault f
      | .refused r => .refused r

/-- A run has ended exactly when `halted = 1` (R116, D16). -/
def State.runEnded (s : State) : Bool := s.halted

/-- What the state report reads: every register, the two flags, and the words at SP and BP (R114). -/
structure StateReport where
  regs : RegFile
  halted : Bool
  errored : Bool
  wordAtSP : Word
  wordAtBP : Word
  deriving DecidableEq, Repr

/-- The state report's contents (R114); reading it changes nothing. -/
def stateReport (s : State) : Except Fault StateReport :=
  match s.readWord .hostRead (s.reg .sp), s.readWord .hostRead (s.reg .bp) with
  | .ok v, .ok w => .ok ⟨s.regs, s.halted, s.errored, v, w⟩
  | .error f, _ => .error f
  | .ok _, .error f => .error f

/-- The front end's step-and-report: one cycle, then the observers (R112). -/
def stepAndReport (s : State) : Host.Outcome (State × StateReport) Fault Refusal :=
  match step s with
  | .next t => orFault (stateReport t) fun r => .next (t, r)
  | .fault f => .fault f
  | .refused r => .refused r

/-- The boot sequence of R233 from a machine at power-up: LOAD the image, INIT, and the machine is ready for cycles. -/
def boot (p : Config.Params) (image : List Byte) (sp pc : Word) : Host.Outcome (State × List HostReply) Fault Refusal :=
  commands [.load image, .hostInit sp pc] (State.powerUp p)

end Sys2Proof.Machine
end

