-- ==== Sys2Proof/Safety.lean ====
section
/-! DEFINITION. The terms the statements use: what a step may touch, what it leaves alone, and what a state must be for
a run to go on. None of the machine's meanings depends on this file. -/

namespace Sys2Proof.Machine

/-! ## What a word access needs -/

/-- A word access at `a` has its second byte: everywhere when `EDGE_WORD = wrap`, and everywhere but at 0xFFFF when
`EDGE_WORD = fault` (spec 20_memory.md R54). -/
abbrev State.wordInRange (s : State) (a : Word) : Prop := s.params.edgeWord = .wrap ∨ a ≠ 0xFFFF#16

/-- The word whose bytes stand at `a` and the next address, modulo 2^16 (R52, R54). -/
def State.wordAt (s : State) (a : Word) : Word := s.byteAt a ++ s.byteAt (a + 1#16)

/-- The state a fetch that completes leaves for execute: the word in IR, PC advanced (40_cycle.md R118). -/
def State.fetched (s : State) : State := (s.setReg .ir (s.wordAt (s.reg .pc))).setReg .pc (s.reg .pc + 2#16)

/-! ## Frames -/

/-- Every register but those listed holds what it held. -/
def RegsKeptBut (s t : State) (written : List Reg) : Prop := ∀ q, q ∉ written → t.reg q = s.reg q

/-- Every byte of memory but those at the listed addresses reads as it read. -/
def BytesKeptBut (s t : State) (stored : List Word) : Prop :=
  ∀ a : Nat, (∀ w ∈ stored, a ≠ w.toNat) → t.mem.readByte a = s.mem.readByte a

/-- Both flags hold what they held (10_state.md R24, R25). -/
def FlagsKept (s t : State) : Prop := t.halted = s.halted ∧ t.errored = s.errored

/-- The model's own fields hold what they held: parameters, host phase, draws taken. -/
def OwnKept (s t : State) : Prop := t.params = s.params ∧ t.phase = s.phase ∧ t.draws = s.draws

/-- The only change is register `r`, which holds `v`. -/
def OnlyRegSet (s t : State) (r : Reg) (v : Word) : Prop :=
  t.reg r = v ∧ RegsKeptBut s t [r] ∧ BytesKeptBut s t [] ∧ FlagsKept s t ∧ OwnKept s t

/-- The only change is memory: `v` stands at `a` and the next address, high byte first (20_memory.md R53). -/
def OnlyWordStored (s t : State) (a v : Word) : Prop :=
  t.byteAt a = v.extractLsb' 8 8 ∧ t.byteAt (a + 1#16) = v.extractLsb' 0 8 ∧
    BytesKeptBut s t [a, a + 1#16] ∧ RegsKeptBut s t [] ∧ FlagsKept s t ∧ OwnKept s t

/-- The only change is that `errored` is set (40_cycle.md R121). -/
def OnlyErroredSet (s t : State) : Prop :=
  t.errored = true ∧ t.halted = s.halted ∧ RegsKeptBut s t [] ∧ BytesKeptBut s t [] ∧ OwnKept s t

/-- Nothing an instruction can touch has changed. -/
def NothingChanged (s t : State) : Prop :=
  RegsKeptBut s t [] ∧ BytesKeptBut s t [] ∧ FlagsKept s t ∧ OwnKept s t

/-- Every word that fits the row's match and mask decodes as `f` says (30_encoding.md R95). -/
def RowDecodes (bits mask : Word) (f : Word → Instr) : Prop := ∀ w : Word, w &&& mask = bits → decode w = f w

/-! ## The encoding formulas of 30_encoding.md R96, as written there -/

/-- `0x4000 | sub3 << 11 | A << 8 | imm8` -/
def formulaTI (sub3 : Word) (a : RegField) (imm8 : BitVec 8) : Word :=
  0x4000#16 ||| sub3 <<< 11 ||| a.zeroExtend 16 <<< 8 ||| imm8.zeroExtend 16

/-- `0x4000 | sub3 << 11 | A << 8 | B << 5 | off5` -/
def formulaTR (sub3 : Word) (a b : RegField) (off5 : BitVec 5) : Word :=
  0x4000#16 ||| sub3 <<< 11 ||| a.zeroExtend 16 <<< 8 ||| b.zeroExtend 16 <<< 5 ||| off5.zeroExtend 16

/-- `0x8000 | sub3 << 11 | A << 8 | B << 5` -/
def formulaMR (sub3 : Word) (a b : RegField) : Word :=
  0x8000#16 ||| sub3 <<< 11 ||| a.zeroExtend 16 <<< 8 ||| b.zeroExtend 16 <<< 5

/-- `0x8000 | sub3 << 11 | A << 8 | imm8` -/
def formulaMI (sub3 : Word) (a : RegField) (imm8 : BitVec 8) : Word :=
  0x8000#16 ||| sub3 <<< 11 ||| a.zeroExtend 16 <<< 8 ||| imm8.zeroExtend 16

/-- `0xC000 | sub2 << 12 | t12` -/
def formulaJ (sub2 : Word) (t12 : BitVec 12) : Word := 0xC000#16 ||| sub2 <<< 12 ||| t12.zeroExtend 16

/-! ## Words that are no instruction -/

/-- The illegal encodings, as ranges of words (30_encoding.md R97). -/
def isIllegalWord (w : Word) : Prop :=
  (0x2000 ≤ w.toNat ∧ w.toNat ≤ 0x3FFF) ∨ (0x7800 ≤ w.toNat ∧ w.toNat ≤ 0x7FFF) ∨
    (0xA800 ≤ w.toNat ∧ w.toNat ≤ 0xB7FF)

/-- The words of the error instruction (41_flow.md R133). -/
def isErrorWord (w : Word) : Prop := 0x1800 ≤ w.toNat ∧ w.toNat ≤ 0x1FFF

/-! ## What each instruction may touch -/

/-- The register a destination field may write: the one `REG_MAP` gives it, and none where that is IR and the model's
parameter `irByField` keeps IR (log 15). -/
def destReg (p : Config.Params) (f : RegField) : List Reg :=
  if regOf p f = .ir ∧ p.irByField = .kept then [] else [regOf p f]

/-- Execute cannot write IR: no field value selects it, or writes through a field keep it (log 15). -/
def irOutOfReach (p : Config.Params) : Prop := (∀ f : RegField, regOf p f ≠ .ir) ∨ p.irByField = .kept

/-- The registers an instruction may write (10_state.md R22, 30_encoding.md R93, 41_flow.md R132, 44_jump.md R183). -/
def destRegs (p : Config.Params) : Instr → List Reg
  | .halt | .nop | .error => []
  | .illegalFlow100 | .illegalFlow101 | .illegalFlow110 | .illegalFlow111 => []
  | .illegalTransfer111 | .illegalManipulate101 | .illegalManipulate110 => []
  | .ret | .call _ => [.sp, .bp, .pc]
  | .loadImmediate a _ | .loadAbsolute a _ | .loadIndirect a _ | .loadIndexed a _ _ => destReg p a
  | .storeAbsolute .. | .storeIndirect .. | .storeIndexed .. => []
  | .negate _ | .addRegister .. | .addImmediate .. | .subtractRegister .. | .subtractImmediate .. => [.ac]
  | .move _ b => destReg p b
  | .jump _ | .jumpIfZero _ | .jumpIfNegative _ => [.pc]

/-- The word accesses an instruction makes in execute, in order, each with its address (20_memory.md R60). -/
def wordAccesses (s : State) : Instr → List (Access × Word)
  | .halt | .nop | .error => []
  | .illegalFlow100 | .illegalFlow101 | .illegalFlow110 | .illegalFlow111 => []
  | .illegalTransfer111 | .illegalManipulate101 | .illegalManipulate110 => []
  | .ret => [(.pop, s.reg .bp), (.pop, s.reg .bp - 2#16)]
  | .loadImmediate .. => []
  | .loadAbsolute _ addr => [(.load, zextAddr8 addr)]
  | .loadIndirect _ b => [(.load, s.fieldReg b)]
  | .loadIndexed _ b off => [(.load, s.indexedAddr b off)]
  | .storeAbsolute _ addr => [(.store, zextAddr8 addr)]
  | .storeIndirect _ b => [(.store, s.fieldReg b)]
  | .storeIndexed _ b off => [(.store, s.indexedAddr b off)]
  | .negate _ | .addRegister .. | .addImmediate .. | .subtractRegister .. | .subtractImmediate .. | .move .. => []
  | .jump _ | .jumpIfZero _ | .jumpIfNegative _ => []
  | .call _ => [(.push, s.reg .sp), (.push, s.reg .sp + 2#16)]

/-- The access writes memory. -/
def Access.writes : Access → Bool
  | .store | .push => true
  | .fetch | .load | .pop | .hostRead => false

/-- The addresses of the bytes an instruction stores to: both bytes of each word it writes. -/
def storedBytes (s : State) (i : Instr) : List Word :=
  ((wordAccesses s i).filter fun x => x.1.writes).flatMap fun x => [x.2, x.2 + 1#16]

/-! ## Invariant -/

/-- What every step keeps: memory is in its canonical form (its addresses inside the 65536 bytes of R50), and the
machine stands between cycles (R117). -/
def State.Inv (s : State) : Prop := s.mem.wf = true ∧ s.phase = .ready

/-- `s` runs `k` steps without a fault or a refusal. -/
def State.runsFor (s : State) (k : Nat) : Prop := ∃ t : State, Sys2Proof.core.run k s = Host.Outcome.next t

end Sys2Proof.Machine
end

