-- ==== Sys2Proof/Certificates/Slice0/Obligations.lean ====
section
/-! DEFINITION. The statements for the provers: what spec/'s numbered rules say, in the terms of Safety.lean. Every statement
about a meaning holds for every value of the parameters of 00_scope.md R7, which are fields of the state. -/

open Sys2Proof Sys2Proof.Machine

/-- For every instruction, with every operand at every value its field admits, decode of encode is the instruction
itself. The illegal rows are covered with the word the model's encoder writes for them (the row's match value, log
12). (derived from 30_encoding.md R95, 30_encoding.md R96, 40_cycle.md R120) -/
def Obligations.DecodeOfEncodeIsTheInstruction : Prop :=
  ∀ i : Instr, decode (encode i) = i

/-- For every row of the opcode map and every word that fits its match and mask, the word decodes to an instruction of
that row's mnemonic, and encoding that instruction gives the word with 0 in every unused bit. For the 21 defined
instructions the encoding is R96's; for the seven illegal rows, which R96's formulas do not cover, the encoding is
the model's choice (log 12: the row's match value). (derived from 30_encoding.md R88, 30_encoding.md R95,
30_encoding.md R96) -/
def Obligations.EncodeOfDecodeKeepsUsedBits : Prop :=
  ∀ r ∈ opcodeMap, ∀ w : Word, r.selects w = true →
    (decode w).mnemonic = r.mnemonic ∧ encode (decode w) = w &&& r.used

/-- For every word there is a row of the opcode map that it selects (w AND mask = match), and every row that it selects
is that row. (derived from 30_encoding.md section 4 (R95)) -/
def Obligations.EveryWordSelectsExactlyOneRow : Prop :=
  ∀ w : Word, ∃ r ∈ opcodeMap, r.selects w = true ∧ ∀ r' ∈ opcodeMap, r'.selects w = true → r' = r

/-- For every defined instruction and all its operands, encode gives the word of R96's formula for its format, with B =
0 for negate, off5 = 0 for the indirect forms and so 0 in every unused bit. (stated: R96) -/
def Obligations.EncodeFollowsTheFormulas : Prop :=
  (encode .halt = 0x0000#16 ∧ encode .nop = 0x0800#16 ∧ encode .ret = 0x1000#16 ∧ encode .error = 0x1800#16) ∧
  (∀ (a : RegField) (v : BitVec 8),
    encode (.loadImmediate a v) = formulaTI 0 a v ∧ encode (.loadAbsolute a v) = formulaTI 1 a v ∧
    encode (.storeAbsolute a v) = formulaTI 4 a v ∧ encode (.addImmediate a v) = formulaMI 2 a v ∧
    encode (.subtractImmediate a v) = formulaMI 4 a v) ∧
  (∀ (a b : RegField) (off : BitVec 5),
    encode (.loadIndirect a b) = formulaTR 2 a b 0 ∧ encode (.loadIndexed a b off) = formulaTR 3 a b off ∧
    encode (.storeIndirect a b) = formulaTR 5 a b 0 ∧ encode (.storeIndexed a b off) = formulaTR 6 a b off ∧
    encode (.negate a) = formulaMR 0 a 0 ∧ encode (.addRegister a b) = formulaMR 1 a b ∧
    encode (.subtractRegister a b) = formulaMR 3 a b ∧ encode (.move a b) = formulaMR 7 a b) ∧
  (∀ t : BitVec 12,
    encode (.jump t) = formulaJ 0 t ∧ encode (.jumpIfZero t) = formulaJ 1 t ∧
    encode (.jumpIfNegative t) = formulaJ 2 t ∧ encode (.call t) = formulaJ 3 t)

/-- For every row of the opcode map and every two words that agree on the row's class, sub-opcode and used operand bits,
the first in the row, both decode to the same instruction. (stated: R88) -/
def Obligations.UnusedBitsDoNotChangeTheInstruction : Prop :=
  ∀ r ∈ opcodeMap, ∀ w w' : Word, r.selects w = true → w &&& r.used = w' &&& r.used → decode w = decode w'

/-- For every instruction and every following bytes, decoding its bytes followed by the rest gives the instruction and
the rest. Any two bytes decode as the word with the first byte on top, and fewer than two bytes give no instruction,
by name (the name is the model's, log 14). (derived from 30_encoding.md R80, 20_memory.md R52) -/
def Obligations.BytesDecodeBigEndianAndRoundTrip : Prop :=
  (∀ (i : Instr) (rest : List Byte), decodeBytes (encodeBytes i ++ rest) = .ok (i, rest)) ∧
  (∀ (hi lo : Byte) (rest : List Byte), decodeBytes (hi :: lo :: rest) = .ok (decode (hi ++ lo : Word), rest)) ∧
  (∀ b : Byte, decodeBytes [b] = .error .tooShort) ∧ decodeBytes [] = .error .tooShort

/-- One word of each family, as 95_test_vectors.md writes it, decodes to the instruction named there; unused bits set do
not matter (0x07FF is halt). (derived from 30_encoding.md R95, 95_test_vectors.md L2) -/
def Obligations.WrittenOutWordsDecode : Prop :=
  decode 0x07FF#16 = .halt ∧ decode 0x1800#16 = .error ∧ decode 0x4105#16 = .loadImmediate 1#3 0x05#8 ∧
  decode 0x5340#16 = .loadIndirect 3#3 2#3 ∧ decode 0x715E#16 = .storeIndexed 1#3 2#3 0x1E#5 ∧
  decode 0x8960#16 = .addRegister 1#3 3#3 ∧ decode 0xBC00#16 = .move 4#3 0#3 ∧
  decode 0xD00A#16 = .jumpIfZero 0x00A#12 ∧ decode 0xF010#16 = .call 0x010#12 ∧
  decode 0x7800#16 = .illegalTransfer111

/-- For every REG_MAP and every line of the assembler form, assembling gives an instruction exactly when every register
operand is one of R0, R1, R2, R3, AC, SP, BP, PC (never IR) and is selected by some field value, every immediate is
-128..255, every absolute address 0..255, every index offset -16..15 and every jump or call target 0..0xFFF. The
parsed form of a line, and that a register no field value selects is refused, are the model's choice (log 16).
(derived from 30_encoding.md R99) -/
def Obligations.AssemblerAcceptsExactlyWellFormedLines : Prop :=
  ∀ (p : Config.Params) (l : Asm),
    let named : Reg → Prop := fun r =>
      r ∈ [Reg.r0, .r1, .r2, .r3, .ac, .sp, .bp, .pc] ∧ ∃ f : RegField, regOf p f = r
    (assemble p l).isSome = true ↔
      match l with
      | .halt | .nop | .ret | .error => True
      | .loadImmediate a imm | .addImmediate a imm | .subtractImmediate a imm => named a ∧ -128 ≤ imm ∧ imm ≤ 255
      | .loadAbsolute a addr | .storeAbsolute a addr => named a ∧ addr ≤ 255
      | .loadIndirect a b | .storeIndirect a b => named a ∧ named b
      | .loadIndexed a b off | .storeIndexed a b off => named a ∧ named b ∧ -16 ≤ off ∧ off ≤ 15
      | .negate a => named a
      | .addRegister a b | .subtractRegister a b | .move a b => named a ∧ named b
      | .jump t | .jumpIfZero t | .jumpIfNegative t | .call t => t ≤ 0xFFF

/-- For every REG_MAP and each of the 21 line shapes: if a line assembles, it assembles to the instruction of its
mnemonic, whose register fields select the registers the line names (first operand in field A, second in field B, so
move's source in A), whose immediate byte equals the number modulo 256, whose address field equals the address,
whose offset field read as two's complement equals the offset, and whose target field equals the target. Which lines
assemble is AssemblerAcceptsExactlyWellFormedLines. The parsed form of a line is the model's choice (log 16).
(derived from 30_encoding.md R99, 30_encoding.md R89, 30_encoding.md R90, 30_encoding.md R91, 30_encoding.md R92) -/
def Obligations.AssembledOperandsMeanTheLine : Prop :=
  ∀ (p : Config.Params) (l : Asm) (i : Instr), assemble p l = some i →
    match l with
    | .halt => i = .halt
    | .nop => i = .nop
    | .ret => i = .ret
    | .error => i = .error
    | .loadImmediate a imm => ∃ f v, i = .loadImmediate f v ∧ regOf p f = a ∧ (v.toNat : Int) = imm % 256
    | .loadAbsolute a addr => ∃ f v, i = .loadAbsolute f v ∧ regOf p f = a ∧ v.toNat = addr
    | .loadIndirect a b => ∃ f g, i = .loadIndirect f g ∧ regOf p f = a ∧ regOf p g = b
    | .loadIndexed a b off => ∃ f g o, i = .loadIndexed f g o ∧ regOf p f = a ∧ regOf p g = b ∧ o.toInt = off
    | .storeAbsolute a addr => ∃ f v, i = .storeAbsolute f v ∧ regOf p f = a ∧ v.toNat = addr
    | .storeIndirect a b => ∃ f g, i = .storeIndirect f g ∧ regOf p f = a ∧ regOf p g = b
    | .storeIndexed a b off => ∃ f g o, i = .storeIndexed f g o ∧ regOf p f = a ∧ regOf p g = b ∧ o.toInt = off
    | .negate a => ∃ f, i = .negate f ∧ regOf p f = a
    | .addRegister a b => ∃ f g, i = .addRegister f g ∧ regOf p f = a ∧ regOf p g = b
    | .addImmediate a imm => ∃ f v, i = .addImmediate f v ∧ regOf p f = a ∧ (v.toNat : Int) = imm % 256
    | .subtractRegister a b => ∃ f g, i = .subtractRegister f g ∧ regOf p f = a ∧ regOf p g = b
    | .subtractImmediate a imm => ∃ f v, i = .subtractImmediate f v ∧ regOf p f = a ∧ (v.toNat : Int) = imm % 256
    | .move a b => ∃ f g, i = .move f g ∧ regOf p f = a ∧ regOf p g = b
    | .jump target => ∃ t, i = .jump t ∧ t.toNat = target
    | .jumpIfZero target => ∃ t, i = .jumpIfZero t ∧ t.toNat = target
    | .jumpIfNegative target => ∃ t, i = .jumpIfNegative t ∧ t.toNat = target
    | .call target => ∃ t, i = .call t ∧ t.toNat = target

/-- For every state, every kind of access and every address up to 0xFFFE, the word read is the byte there shifted left
by 8, or'ed with the byte at the next address. (stated: R52) -/
def Obligations.WordReadIsBigEndian : Prop :=
  ∀ (s : State) (why : Access) (a : Word), a ≠ 0xFFFF#16 →
    s.readWord why a = .ok ((s.byteAt a).zeroExtend 16 <<< 8 |||
      (s.byteAt (BitVec.ofNat 16 (a.toNat + 1))).zeroExtend 16)

/-- For every state, every kind of access, every address up to 0xFFFE and every value, the write completes, stores the
high byte at the address and the low byte at the next, and leaves every other byte, every register and both flags as
they were. The model's own fields (parameters, host phase, draw count: log 5, 8, 9) are unchanged. (stated: R53) -/
def Obligations.WordWriteIsBigEndian : Prop :=
  ∀ (s : State) (why : Access) (a v : Word), a ≠ 0xFFFF#16 →
    ∃ t, s.writeWord why a v = .ok t ∧ OnlyWordStored s t a v

/-- For every kind of access: with EDGE_WORD = wrap a word read at 0xFFFF joins the bytes at 0xFFFF and 0x0000 and a
word write stores to exactly those two; with EDGE_WORD = fault both stop with the model's fault, which carries no
state. The model's own fields (parameters, host phase, draw count: log 5, 8, 9) are unchanged. The fault's name is
the model's (log 13). (derived from 20_memory.md R54) -/
def Obligations.WordAccessAtTheTopAddress : Prop :=
  ∀ (s : State) (why : Access) (v : Word),
    (s.params.edgeWord = .wrap →
      s.readWord why 0xFFFF#16 = .ok (s.byteAt 0xFFFF#16 ++ s.byteAt 0x0000#16 : Word) ∧
      ∃ t, s.writeWord why 0xFFFF#16 v = .ok t ∧ t.byteAt 0xFFFF#16 = v.extractLsb' 8 8 ∧
        t.byteAt 0x0000#16 = v.extractLsb' 0 8 ∧ BytesKeptBut s t [0xFFFF#16, 0x0000#16] ∧ RegsKeptBut s t [] ∧
        FlagsKept s t ∧ OwnKept s t) ∧
    (s.params.edgeWord = .fault →
      s.readWord why 0xFFFF#16 = .error (.wordAtTop why) ∧ s.writeWord why 0xFFFF#16 v = .error (.wordAtTop why))

/-- For every state, address (odd or even) and value for which the write completes, reading the same address gives the
value written, and a read one address higher that completes has the value's low byte as its high byte. (derived from
20_memory.md R61, 20_memory.md R58, 20_memory.md R59) -/
def Obligations.WrittenWordReadsBack : Prop :=
  ∀ (s t : State) (why why' : Access) (a v : Word), s.writeWord why a v = .ok t →
    t.readWord why' a = .ok v ∧
    ∀ w, t.readWord why' (a + 1#16) = .ok w → w.extractLsb' 8 8 = v.extractLsb' 0 8

/-- From every state that stands between cycles or at power-up, halted or not, the command INIT(sp, pc) zeroes R0 to R3,
AC and IR, sets SP to sp, BP to sp - 2 modulo 2^16 and PC to pc, clears both flags and leaves every byte of memory
and the parameters as they were. (stated: R230) -/
def Obligations.InitSetsRegistersAndKeepsMemory : Prop :=
  ∀ (s : State) (sp pc : Word), s.phase ≠ .fetched →
    ∃ t, command (.hostInit sp pc) s = .next (t, .none) ∧
      t.reg .r0 = 0#16 ∧ t.reg .r1 = 0#16 ∧ t.reg .r2 = 0#16 ∧ t.reg .r3 = 0#16 ∧ t.reg .ac = 0#16 ∧
      t.reg .sp = sp ∧ t.reg .bp = sp - 2#16 ∧ t.reg .pc = pc ∧ t.reg .ir = 0#16 ∧
      t.halted = false ∧ t.errored = false ∧ BytesKeptBut s t [] ∧ t.params = s.params

/-- The model's reset state is what INIT with the launch values 0x0100 and 0x0000 leaves of the power-up state with the
default parameters (the model's choice: log entries 1 to 4), every byte of memory reads 0x00, and the registers and
flags hold R32's values. (derived from 10_state.md R32, 20_memory.md R55, 00_scope.md R7) -/
def Obligations.ResetIsInitOfPowerUpMemory : Prop :=
  State.reset = (State.powerUp Config.defaultParams).hostInit 0x0100#16 0x0000#16 ∧
  (∀ a : Word, State.reset.byteAt a = 0x00#8) ∧
  State.reset.reg .sp = 0x0100#16 ∧ State.reset.reg .bp = 0x00FE#16 ∧ State.reset.reg .pc = 0x0000#16 ∧
  (∀ q ∈ [Reg.r0, .r1, .r2, .r3, .ac, .ir], State.reset.reg q = 0x0000#16) ∧
  State.reset.halted = false ∧ State.reset.errored = false

/-- From every state not between a FETCH and its EXECUTE: LOAD of at most 65536 bytes puts byte i at address i, leaves
every byte at or beyond the image's length, every register and both flags as they were; a longer image is refused.
The model's own fields (parameters, host phase, draw count: log 5, 8, 9) are unchanged. The refusals' names are the
model's (log 9). (stated: R56) -/
def Obligations.LoadCopiesTheImage : Prop :=
  ∀ (s : State) (image : List Byte), s.phase ≠ .fetched →
    (image.length ≤ 65536 →
      ∃ t, command (.load image) s = .next (t, .none) ∧
        (∀ (i : Nat) (h : i < image.length), t.mem.readByte i = image[i]) ∧
        (∀ i : Nat, image.length ≤ i → t.mem.readByte i = s.mem.readByte i) ∧
        RegsKeptBut s t [] ∧ FlagsKept s t ∧ OwnKept s t) ∧
    (65536 < image.length → command (.load image) s = .refused .imageTooLong)

/-- Before the first INIT, FETCH, EXECUTE and the step are refused; between cycles EXECUTE is refused; after a FETCH
every command but EXECUTE is refused, and so is the step. LOAD of an image that fits is accepted before INIT and
between cycles, and leaves the parameters, the host phase and the draw count (the model's own fields: log 5, 8, 9)
unchanged. That the observers too are refused mid-cycle is the model's reading (log 9). The refusals' names are the
model's (log 9). (derived from 40_cycle.md R117, 40_cycle.md R111, 10_state.md R33) -/
def Obligations.HostCommandOrderIsKept : Prop :=
  ∀ s : State,
    (s.phase = .powerUp → command .fetch s = .refused .beforeInit ∧ command .execute s = .refused .beforeInit ∧
      step s = .refused .beforeInit) ∧
    (s.phase = .ready → command .execute s = .refused .executeWithoutFetch) ∧
    (s.phase = .fetched → step s = .refused .midCycle ∧ ∀ c, c ≠ .execute → command c s = .refused .midCycle) ∧
    (s.phase ≠ .fetched → ∀ image : List Byte, image.length ≤ 65536 →
      ∃ t, command (.load image) s = .next (t, .none) ∧ OwnKept s t)

/-- From every state between cycles, the two host commands FETCH and EXECUTE in that order answer exactly what the step
answers: the same next state with no reply, the same fault, or the same refusal. (derived from 40_cycle.md R112,
40_cycle.md R117, 40_cycle.md R123) -/
def Obligations.FetchThenExecuteIsOneStep : Prop :=
  ∀ s : State, s.phase = .ready →
    commands singleCycle s =
      match step s with
      | .next t => .next (t, [.none, .none])
      | .fault f => .fault f
      | .refused r => .refused r

/-- From every state not between a FETCH and its EXECUTE, READREG, HALTED?, ERRORED? and READMEM of a byte or of a word
answer the register, flag, byte or word and leave the state as it is; a word at 0xFFFF under EDGE_WORD = fault stops
with the fault (log 10). The fault's name is the model's (log 13). (derived from 10_state.md R23, 10_state.md R27,
40_cycle.md R110, 40_cycle.md R114) -/
def Obligations.ObserversChangeNothing : Prop :=
  ∀ s : State, s.phase ≠ .fetched →
    (∀ r, command (.readReg r) s = .next (s, .word (s.reg r))) ∧
    command .isHalted s = .next (s, .flag s.halted) ∧ command .hasErrored s = .next (s, .flag s.errored) ∧
    (∀ a, command (.readByte a) s = .next (s, .byte (s.byteAt a))) ∧
    (∀ a, s.wordInRange a → command (.readWord a) s = .next (s, .word (s.wordAt a))) ∧
    (∀ a, ¬s.wordInRange a → command (.readWord a) s = .fault (.wordAtTop .hostRead))

/-- For all parameters, every image of at most 65536 bytes and all launch values: the boot sequence from power-up ends
between cycles with byte i of the image at address i, 0x00 beyond it, every register and flag at R32's value; INIT
before LOAD gives the same state. (derived from 70_reset_and_hazards.md R233, 10_state.md R32, 20_memory.md R56) -/
def Obligations.BootLeavesTheMachineReady : Prop :=
  ∀ (p : Config.Params) (image : List Byte) (sp pc : Word), image.length ≤ 65536 →
    ∃ t, boot p image sp pc = .next (t, [.none, .none]) ∧
      commands [.hostInit sp pc, .load image] (State.powerUp p) = .next (t, [.none, .none]) ∧
      (∀ (i : Nat) (h : i < image.length), t.mem.readByte i = image[i]) ∧
      (∀ i : Nat, image.length ≤ i → t.mem.readByte i = 0x00#8) ∧
      t.reg .sp = sp ∧ t.reg .bp = sp - 2#16 ∧ t.reg .pc = pc ∧
      (∀ q ∈ [Reg.r0, .r1, .r2, .r3, .ac, .ir], t.reg q = 0x0000#16) ∧
      t.halted = false ∧ t.errored = false ∧ t.params = p ∧ t.phase = .ready

/-- For every host command and every state whose memory is in canonical form (strictly rising addresses inside the 65536
bytes, no entry equal to the power-up byte), the memory after the command is in canonical form. The canonical list
form is the model's choice (log 17), no rule of the spec; the rules give the 65536 addresses (R50), the power-up
byte 0x00 (R55) and what LOAD writes (R56). (derived from 20_memory.md R50, 20_memory.md R55, 20_memory.md R56) -/
def Obligations.HostCommandsKeepMemoryCanonical : Prop :=
  ∀ (c : HostCommand) (s t : State) (r : HostReply), s.mem.wf = true → command c s = .next (t, r) → t.mem.wf = true

/-- For every state: halted, fetch changes nothing; otherwise, where the word at PC has its second byte, fetch answers
the state with that word in IR and PC + 2 modulo 2^16 in PC and nothing else changed; at 0xFFFF under EDGE_WORD =
fault it faults. The model's own fields (parameters, host phase, draw count: log 5, 8, 9) are unchanged. The fault's
name is the model's (log 13). (stated: R118) -/
def Obligations.FetchLoadsIrAndAdvancesPc : Prop :=
  ∀ s : State,
    (s.halted = true → fetch s = .ok s) ∧
    (s.halted = false → s.wordInRange (s.reg .pc) →
      ∃ t, fetch s = .ok t ∧ t.reg .ir = s.wordAt (s.reg .pc) ∧ t.reg .pc = s.reg .pc + 2#16 ∧
        RegsKeptBut s t [.ir, .pc] ∧ BytesKeptBut s t [] ∧ FlagsKept s t ∧ OwnKept s t) ∧
    (s.halted = false → ¬s.wordInRange (s.reg .pc) → fetch s = .error (.wordAtTop .fetch))

/-- Between cycles and not halted, where the word at PC has its second byte and decodes to the instruction i, the step
answers what i answers on the state with that word in IR and PC advanced by 2. (derived from 40_cycle.md R118,
40_cycle.md R119, 40_cycle.md R123) -/
def Obligations.StepRunsTheDecodedInstruction : Prop :=
  ∀ (s : State) (i : Instr), s.phase = .ready → s.halted = false → s.wordInRange (s.reg .pc) →
    decode (s.wordAt (s.reg .pc)) = i →
    step s = exec i ((s.setReg .ir (s.wordAt (s.reg .pc))).setReg .pc (s.reg .pc + 2#16))

/-- For every halted state: fetch and execute change nothing; between cycles any number of steps leaves the state
exactly as it is; and a host command after which the machine is not halted is INIT. (stated: R122) -/
def Obligations.HaltedMachineIsFrozen : Prop :=
  ∀ s : State, s.halted = true →
    fetch s = .ok s ∧ execute s = .next s ∧
    (s.phase = .ready → ∀ k : Nat, Sys2Proof.core.run k s = Host.Outcome.next s) ∧
    (∀ (c : HostCommand) (t : State) (r : HostReply), command c s = .next (t, r) → t.halted = false →
      ∃ sp pc, c = .hostInit sp pc)

/-- For every step that answers a next state, halted is set after it exactly if it was set before or the word at PC is a
halt word (bits 15:11 zero); INIT clears it, and a host command that clears it is INIT; while it is set, fetch and
execute change nothing. (stated: R24) -/
def Obligations.HaltedIsStickyAndSetOnlyByHalt : Prop :=
  (∀ s t : State, step s = .next t →
      (t.halted = true ↔ s.halted = true ∨ s.wordAt (s.reg .pc) &&& 0xF800#16 = 0x0000#16)) ∧
  (∀ (s : State) (sp pc : Word), (s.hostInit sp pc).halted = false) ∧
  (∀ (s t : State) (c : HostCommand) (r : HostReply), command c s = .next (t, r) → s.halted = true →
      t.halted = false → ∃ sp pc, c = .hostInit sp pc) ∧
  (∀ s : State, s.halted = true → fetch s = .ok s ∧ execute s = .next s)

/-- For every step from a state that is not halted that answers a next state, errored is set after it exactly if it was
set before or the word at PC is an error word or an illegal word, and such a word does not set halted; a halted
state keeps errored; INIT clears it and a host command that clears it is INIT. (stated: R25) -/
def Obligations.ErroredIsStickyAndSetOnlyByErrorWords : Prop :=
  (∀ s t : State, step s = .next t → s.halted = false →
      ((t.errored = true ↔ s.errored = true ∨ isErrorWord (s.wordAt (s.reg .pc)) ∨
          isIllegalWord (s.wordAt (s.reg .pc))) ∧
        (isErrorWord (s.wordAt (s.reg .pc)) ∨ isIllegalWord (s.wordAt (s.reg .pc)) → t.halted = false))) ∧
  (∀ s t : State, step s = .next t → s.halted = true → t.errored = s.errored) ∧
  (∀ (s : State) (sp pc : Word), (s.hostInit sp pc).errored = false) ∧
  (∀ (s t : State) (c : HostCommand) (r : HostReply), command c s = .next (t, r) → s.errored = true →
      t.errored = false → ∃ sp pc, c = .hostInit sp pc)

/-- For every state between cycles whose EDGE_WORD is wrap, whatever word stands at PC, the step answers a next state:
no fault and no refusal. (derived from 60_exceptions.md R203, 40_cycle.md R123) -/
def Obligations.StepAlwaysCompletesUnderWrap : Prop :=
  ∀ s : State, s.phase = .ready → s.params.edgeWord = .wrap → ∃ t, step s = .next t

/-- Between cycles and not halted, the step answers a fault exactly if EDGE_WORD is fault and either PC is 0xFFFF (the
fault is fetch's, execute does not run) or PC is not and the fetched instruction makes an access of that kind at
0xFFFF. The fault's name is the model's (log 13). (derived from 20_memory.md R54, 20_memory.md R60, 60_exceptions.md
R203, 60_exceptions.md R204) -/
def Obligations.StepFaultsExactlyAtTheTopAddress : Prop :=
  ∀ (s : State) (f : Fault), s.phase = .ready → s.halted = false →
    (step s = .fault f ↔
      s.params.edgeWord = .fault ∧
        ((s.reg .pc = 0xFFFF#16 ∧ f = .wordAtTop .fetch) ∨
          (s.reg .pc ≠ 0xFFFF#16 ∧ ∃ k, f = .wordAtTop k ∧
            (k, 0xFFFF#16) ∈ wordAccesses s.fetched (decode (s.wordAt (s.reg .pc))))))

/-- For every state in the invariant (memory in its canonical form, all its addresses inside the 65536 bytes, the
machine between cycles), if the step answers a next state, that state is in the invariant. The invariant is the
model's: the canonical list form is its choice (log 17) and the host phase its own field (DEDUCED, log 9); the rules
give the 65536 addresses (R50), the power-up byte 0x00 (R55) and the command order (R117). (derived from
20_memory.md R50, 20_memory.md R55, 40_cycle.md R117) -/
def Obligations.StepKeepsTheInvariant : Prop :=
  ∀ s t : State, s.Inv → step s = .next t → t.Inv

/-- The reset state's memory is in canonical form and the machine stands between cycles. The invariant is the model's:
the canonical list form is its choice (log 17) and the host phase its own field (DEDUCED, log 9); the rules give the
power-up bytes (R55) and the state INIT leaves (R32). (derived from 20_memory.md R55, 10_state.md R32) -/
def Obligations.ResetMeetsTheInvariant : Prop :=
  State.reset.Inv

/-- For every step that answers a next state, the parameters are unchanged and the count of draws taken (the model's own
field, log 5) is unchanged or one more, and one more only if LEGACY_REGB is unknown. (derived from 00_scope.md R7,
10_state.md R30) -/
def Obligations.StepKeepsTheParameters : Prop :=
  ∀ s t : State, step s = .next t →
    t.params = s.params ∧ (t.draws = s.draws ∨ (t.draws = s.draws + 1 ∧ s.params.legacyRegB = .unknown))

/-- For every instruction and every state, if exec answers a next state, every register not among the instruction's
destinations (the register REG_MAP gives the destination field of loads and move, AC of the arithmetic, PC of the
jumps, SP, BP and PC of call and return, none otherwise) is unchanged, IR and PC among them. Where REG_MAP gives a
destination field IR, IR counts as that instruction's destination only if the machine's irByField is written: which
it is, the rules leave open (R11 against R22 and R119), and that parameter is the model's own (log 15). (derived
from 10_state.md R22, 10_state.md R29, 30_encoding.md R93, 40_cycle.md R119, 60_exceptions.md R206) -/
def Obligations.RegistersChangeOnlyAsDestinations : Prop :=
  ∀ (i : Instr) (s t : State), exec i s = .next t → RegsKeptBut s t (destRegs s.params i)

/-- For every instruction and every state, if exec answers a next state, every byte outside the words the instruction
stores (at zext(addr8), x[regB], x[regB] + offset for the stores; at SP and SP + 2 for call; none otherwise) reads
as before. (derived from 20_memory.md R60, 40_cycle.md R124, 42_transfer.md) -/
def Obligations.MemoryChangesOnlyWhereStored : Prop :=
  ∀ (i : Instr) (s t : State), exec i s = .next t → BytesKeptBut s t (storedBytes s i)

/-- For every state that is not halted: a store-absolute, store-indirect or store-indexed whose address is PC completes,
and the fetch that follows reads the stored register's value into IR; a call whose target is SP completes and the
fetch at the target reads the pushed PC; a call whose target is SP + 2 completes and the fetch at the target reads
the pushed BP. (Where EDGE_WORD = fault, for the addresses that have a second byte.) (derived from 20_memory.md R65,
70_reset_and_hazards.md R237) -/
def Obligations.StoredWordIsWhatTheNextFetchReads : Prop :=
  ∀ (s : State) (a b : RegField) (addr8 : BitVec 8) (off5 : BitVec 5) (t12 : BitVec 12), s.halted = false →
    (addr8.zeroExtend 16 = s.reg .pc →
      ∃ t u, exec (.storeAbsolute a addr8) s = .next t ∧ fetch t = .ok u ∧ u.reg .ir = s.fieldReg a ∧
        u.reg .pc = s.reg .pc + 2#16) ∧
    (s.fieldReg b = s.reg .pc → s.wordInRange (s.reg .pc) →
      ∃ t u, exec (.storeIndirect a b) s = .next t ∧ fetch t = .ok u ∧ u.reg .ir = s.fieldReg a ∧
        u.reg .pc = s.reg .pc + 2#16) ∧
    (s.indexedAddr b off5 = s.reg .pc → s.wordInRange (s.reg .pc) →
      ∃ t u, exec (.storeIndexed a b off5) s = .next t ∧ fetch t = .ok u ∧ u.reg .ir = s.fieldReg a ∧
        u.reg .pc = s.reg .pc + 2#16) ∧
    (s.reg .sp = t12.zeroExtend 16 →
      ∃ t u, exec (.call t12) s = .next t ∧ fetch t = .ok u ∧ u.reg .ir = s.reg .pc ∧
        u.reg .pc = s.reg .sp + 2#16) ∧
    (s.reg .sp + 2#16 = t12.zeroExtend 16 → s.wordInRange (s.reg .sp) →
      ∃ t u, exec (.call t12) s = .next t ∧ fetch t = .ok u ∧ u.reg .ir = s.reg .bp ∧
        u.reg .pc = s.reg .sp + 4#16)

/-- For every state and all launch values, after INIT(sp, pc) with a nop word at pc (whatever its unused bits), the step
leaves PC = pc + 2 and IR = that word, and every other register, both flags and memory as INIT left them. The
model's own fields (parameters, host phase, draw count: log 5, 8, 9) are unchanged. (stated: R125) -/
def Obligations.NopCycleAfterInit : Prop :=
  ∀ (s : State) (sp pc : Word),
    (s.hostInit sp pc).wordInRange pc → (s.hostInit sp pc).wordAt pc &&& 0xF800#16 = 0x0800#16 →
    ∃ t, step (s.hostInit sp pc) = .next t ∧ t.reg .pc = pc + 2#16 ∧ t.reg .ir = (s.hostInit sp pc).wordAt pc ∧
      RegsKeptBut (s.hostInit sp pc) t [.pc, .ir] ∧ FlagsKept (s.hostInit sp pc) t ∧
      BytesKeptBut (s.hostInit sp pc) t [] ∧ OwnKept (s.hostInit sp pc) t

/-- Between cycles and not halted, where the word at PC is one of the illegal encodings, the step answers a state with
errored set, halted clear, IR the word, PC advanced by 2 and every other register and every byte of memory
unchanged; execute on an illegal word in IR writes nothing but errored. The model's own fields (parameters, host
phase, draw count: log 5, 8, 9) are unchanged. (stated: R121) -/
def Obligations.IllegalWordCycleOnlySetsErrored : Prop :=
  (∀ s : State, s.phase = .ready → s.halted = false → s.wordInRange (s.reg .pc) →
      isIllegalWord (s.wordAt (s.reg .pc)) →
      ∃ t, step s = .next t ∧ t.errored = true ∧ t.halted = false ∧ t.reg .ir = s.wordAt (s.reg .pc) ∧
        t.reg .pc = s.reg .pc + 2#16 ∧ RegsKeptBut s t [.ir, .pc] ∧ BytesKeptBut s t [] ∧ OwnKept s t) ∧
  (∀ s : State, s.halted = false → isIllegalWord (s.reg .ir) →
      ∃ t, execute s = .next t ∧ OnlyErroredSet s t)

/-- Every word 0x0000 to 0x07FF decodes to halt; in every state halt completes, sets halted and leaves errored, every
register and every byte of memory unchanged. The model's own fields (parameters, host phase, draw count: log 5, 8,
9) are unchanged. (stated: R130) -/
def Obligations.HaltSetsHalted : Prop :=
  RowDecodes 0x0000#16 0xF800#16 (fun _ => .halt) ∧
  ∀ s : State, ∃ t, exec .halt s = .next t ∧ t.halted = true ∧ t.errored = s.errored ∧ RegsKeptBut s t [] ∧
    BytesKeptBut s t [] ∧ OwnKept s t

/-- Every word 0x0800 to 0x0FFF decodes to nop; in every state nop completes and changes no register, flag or byte of
memory. The model's own fields (parameters, host phase, draw count: log 5, 8, 9) are unchanged. (stated: R131) -/
def Obligations.NopChangesNothing : Prop :=
  RowDecodes 0x0800#16 0xF800#16 (fun _ => .nop) ∧
  ∀ s : State, ∃ t, exec .nop s = .next t ∧ NothingChanged s t

/-- Words with bits 15:11 = 00010 decode to return. Where the words at BP and BP - 2 have their second bytes, return
completes with SP = BP - 2, BP the word at the old BP, PC the word at the old BP - 2, all else unchanged; otherwise
it stops with the fault of R54 (BP = 0xFFFF or 0x0001 under EDGE_WORD = fault). The model's own fields (parameters,
host phase, draw count: log 5, 8, 9) are unchanged. The fault's name is the model's (log 13). (stated: R132) -/
def Obligations.ReturnPopsTheFrame : Prop :=
  RowDecodes 0x1000#16 0xF800#16 (fun _ => .ret) ∧
  ∀ s : State,
    (s.wordInRange (s.reg .bp) ∧ s.wordInRange (s.reg .bp - 2#16) →
      ∃ t, exec .ret s = .next t ∧ t.reg .sp = s.reg .bp - 2#16 ∧ t.reg .bp = s.wordAt (s.reg .bp) ∧
        t.reg .pc = s.wordAt (s.reg .bp - 2#16) ∧ RegsKeptBut s t [.sp, .bp, .pc] ∧ BytesKeptBut s t [] ∧
        FlagsKept s t ∧ OwnKept s t) ∧
    (¬(s.wordInRange (s.reg .bp) ∧ s.wordInRange (s.reg .bp - 2#16)) → exec .ret s = .fault (.wordAtTop .pop))

/-- Every word 0x1800 to 0x1FFF decodes to error; in every state error completes, sets errored and leaves halted, every
register and every byte of memory unchanged, and gives the same state as an illegal word gives. The model's own
fields (parameters, host phase, draw count: log 5, 8, 9) are unchanged. (stated: R133) -/
def Obligations.ErrorSetsErrored : Prop :=
  RowDecodes 0x1800#16 0xF800#16 (fun _ => .error) ∧
  ∀ s : State, (∃ t, exec .error s = .next t ∧ OnlyErroredSet s t) ∧ exec .error s = exec .illegalFlow100 s

/-- Words of flow sub-opcodes 100 to 111, transfer sub-opcode 111 and manipulate sub-opcodes 101 and 110 decode to the
illegal rows; in every state each completes, sets errored and leaves halted, every register (AC and PC among them)
and every byte of memory unchanged. The model's own fields (parameters, host phase, draw count: log 5, 8, 9) are
unchanged. (stated: R134, R147, R166) -/
def Obligations.IllegalRowsOnlySetErrored : Prop :=
  (RowDecodes 0x2000#16 0xF800#16 (fun _ => .illegalFlow100) ∧
    RowDecodes 0x2800#16 0xF800#16 (fun _ => .illegalFlow101) ∧
    RowDecodes 0x3000#16 0xF800#16 (fun _ => .illegalFlow110) ∧
    RowDecodes 0x3800#16 0xF800#16 (fun _ => .illegalFlow111) ∧
    RowDecodes 0x7800#16 0xF800#16 (fun _ => .illegalTransfer111) ∧
    RowDecodes 0xA800#16 0xF800#16 (fun _ => .illegalManipulate101) ∧
    RowDecodes 0xB000#16 0xF800#16 (fun _ => .illegalManipulate110)) ∧
  ∀ s : State, ∀ i ∈ [Instr.illegalFlow100, .illegalFlow101, .illegalFlow110, .illegalFlow111, .illegalTransfer111,
      .illegalManipulate101, .illegalManipulate110],
    ∃ t, exec i s = .next t ∧ OnlyErroredSet s t

/-- Words with bits 15:11 = 01000 decode to load-immediate with A at bits 10:8 and imm8 at bits 7:0; in every state it
completes, sets the register REG_MAP gives A (PC, AC, SP and BP among them; any but IR) to sext_16(imm8) and changes
nothing else. A REG_MAP that names IR as the destination (R11 makes that a write of IR, R22 and R119 deny it) is the
statement ExecuteWritesIrOnlyWhereTheMapNamesIt's (log 15). The model's own fields (parameters, host phase, draw
count: log 5, 8, 9) are unchanged. (stated: R140) -/
def Obligations.LoadImmediateResult : Prop :=
  RowDecodes 0x4000#16 0xF800#16 (fun w => .loadImmediate (w.extractLsb' 8 3) (w.extractLsb' 0 8)) ∧
  ∀ (s : State) (a : RegField) (imm8 : BitVec 8),
    regOf s.params a ≠ .ir →
      ∃ t, exec (.loadImmediate a imm8) s = .next t ∧ OnlyRegSet s t (regOf s.params a) (imm8.signExtend 16)

/-- Words with bits 15:11 = 01001 decode to load-absolute; in every state (the address is at most 0x00FF, so never the
0xFFFF case) it completes, sets the register REG_MAP gives A (any but IR) to the word at zext_16(addr8) and changes
nothing else. A REG_MAP that names IR as the destination (R11 makes that a write of IR, R22 and R119 deny it) is the
statement ExecuteWritesIrOnlyWhereTheMapNamesIt's (log 15). The model's own fields (parameters, host phase, draw
count: log 5, 8, 9) are unchanged. (stated: R141) -/
def Obligations.LoadAbsoluteResult : Prop :=
  RowDecodes 0x4800#16 0xF800#16 (fun w => .loadAbsolute (w.extractLsb' 8 3) (w.extractLsb' 0 8)) ∧
  ∀ (s : State) (a : RegField) (addr8 : BitVec 8),
    regOf s.params a ≠ .ir → ∃ t, exec (.loadAbsolute a addr8) s = .next t ∧
      OnlyRegSet s t (regOf s.params a) (s.wordAt (addr8.zeroExtend 16))

/-- Words with bits 15:11 = 01010 decode to load-indirect, bits 4:0 ignored. Where the word at x[regB] has its second
byte it completes, sets the register REG_MAP gives A (any but IR) to that word (the address taken before the
register is written) and changes nothing else; without a second byte it stops with the fault of R54, whatever A is.
A REG_MAP that names IR as the destination (R11 makes that a write of IR, R22 and R119 deny it) is the statement
ExecuteWritesIrOnlyWhereTheMapNamesIt's (log 15). The model's own fields (parameters, host phase, draw count: log 5,
8, 9) are unchanged. The fault's name is the model's (log 13). (stated: R142) -/
def Obligations.LoadIndirectResult : Prop :=
  RowDecodes 0x5000#16 0xF800#16 (fun w => .loadIndirect (w.extractLsb' 8 3) (w.extractLsb' 5 3)) ∧
  ∀ (s : State) (a b : RegField),
    (regOf s.params a ≠ .ir → s.wordInRange (s.reg (regOf s.params b)) →
      ∃ t, exec (.loadIndirect a b) s = .next t ∧
        OnlyRegSet s t (regOf s.params a) (s.wordAt (s.reg (regOf s.params b)))) ∧
    (¬s.wordInRange (s.reg (regOf s.params b)) →
      exec (.loadIndirect a b) s = .fault (.wordAtTop .load))

/-- Words with bits 15:11 = 01011 decode to load-indexed with off5 at bits 4:0. Where the word at x[regB] +
sext_16(off5) modulo 2^16 has its second byte it completes, sets the register REG_MAP gives A (any but IR) to that
word and changes nothing else; without a second byte it stops with the fault of R54, whatever A is. With off5 = 0 it
acts as load-indirect. A REG_MAP that names IR as the destination (R11 makes that a write of IR, R22 and R119 deny
it) is the statement ExecuteWritesIrOnlyWhereTheMapNamesIt's (log 15). The model's own fields (parameters, host
phase, draw count: log 5, 8, 9) are unchanged. The fault's name is the model's (log 13). (stated: R143) -/
def Obligations.LoadIndexedResult : Prop :=
  RowDecodes 0x5800#16 0xF800#16 (fun w => .loadIndexed (w.extractLsb' 8 3) (w.extractLsb' 5 3) (w.extractLsb' 0 5)) ∧
  ∀ (s : State) (a b : RegField) (off5 : BitVec 5),
    (regOf s.params a ≠ .ir → s.wordInRange (s.reg (regOf s.params b) + off5.signExtend 16) →
      ∃ t, exec (.loadIndexed a b off5) s = .next t ∧
        OnlyRegSet s t (regOf s.params a) (s.wordAt (s.reg (regOf s.params b) + off5.signExtend 16))) ∧
    (¬s.wordInRange (s.reg (regOf s.params b) + off5.signExtend 16) →
      exec (.loadIndexed a b off5) s = .fault (.wordAtTop .load)) ∧
    exec (.loadIndexed a b 0) s = exec (.loadIndirect a b) s

/-- Words with bits 15:11 = 01100 decode to store-absolute; in every state it completes, stores the value of the
register REG_MAP gives A at zext_16(addr8) and the next byte, high byte first, and changes no other byte, register
or flag. The model's own fields (parameters, host phase, draw count: log 5, 8, 9) are unchanged. (stated: R144) -/
def Obligations.StoreAbsoluteResult : Prop :=
  RowDecodes 0x6000#16 0xF800#16 (fun w => .storeAbsolute (w.extractLsb' 8 3) (w.extractLsb' 0 8)) ∧
  ∀ (s : State) (a : RegField) (addr8 : BitVec 8),
    ∃ t, exec (.storeAbsolute a addr8) s = .next t ∧
      OnlyWordStored s t (zextAddr8 addr8) (s.reg (regOf s.params a)) ∧ zextAddr8 addr8 = addr8.zeroExtend 16

/-- Words with bits 15:11 = 01101 decode to store-indirect, bits 4:0 ignored. Where the word at x[regB] has its second
byte it completes, stores the value of the register REG_MAP gives A there, high byte first, and changes no other
byte, register or flag; otherwise it stops with the fault of R54. The model's own fields (parameters, host phase,
draw count: log 5, 8, 9) are unchanged. The fault's name is the model's (log 13). (stated: R145) -/
def Obligations.StoreIndirectResult : Prop :=
  RowDecodes 0x6800#16 0xF800#16 (fun w => .storeIndirect (w.extractLsb' 8 3) (w.extractLsb' 5 3)) ∧
  ∀ (s : State) (a b : RegField),
    s.fieldReg b = s.reg (regOf s.params b) ∧
    (s.wordInRange (s.fieldReg b) →
      ∃ t, exec (.storeIndirect a b) s = .next t ∧ OnlyWordStored s t (s.fieldReg b) (s.reg (regOf s.params a))) ∧
    (¬s.wordInRange (s.fieldReg b) → exec (.storeIndirect a b) s = .fault (.wordAtTop .store))

/-- Words with bits 15:11 = 01110 decode to store-indexed with off5 at bits 4:0. Where the word at x[regB] +
sext_16(off5) modulo 2^16 has its second byte it completes, stores the value of the register REG_MAP gives A there,
high byte first, and changes no other byte, register (the base register among them) or flag; otherwise it stops with
the fault of R54. The model's own fields (parameters, host phase, draw count: log 5, 8, 9) are unchanged. The
fault's name is the model's (log 13). (stated: R146) -/
def Obligations.StoreIndexedResult : Prop :=
  RowDecodes 0x7000#16 0xF800#16 (fun w => .storeIndexed (w.extractLsb' 8 3) (w.extractLsb' 5 3) (w.extractLsb' 0 5)) ∧
  ∀ (s : State) (a b : RegField) (off5 : BitVec 5),
    s.indexedAddr b off5 = s.reg (regOf s.params b) + off5.signExtend 16 ∧
    (s.wordInRange (s.indexedAddr b off5) →
      ∃ t, exec (.storeIndexed a b off5) s = .next t ∧ OnlyWordStored s t (s.indexedAddr b off5) (s.reg (regOf s.params a))) ∧
    (¬s.wordInRange (s.indexedAddr b off5) → exec (.storeIndexed a b off5) s = .fault (.wordAtTop .store))

/-- Words with bits 15:11 = 10000 decode to negate, bits 7:0 ignored; in every state it completes, sets AC to 0 -
x[regA] modulo 2^16 (as numbers: 65536 - x, or 0 for 0) and changes nothing else. The model's own fields
(parameters, host phase, draw count: log 5, 8, 9) are unchanged. (stated: R160) -/
def Obligations.NegateResult : Prop :=
  RowDecodes 0x8000#16 0xF800#16 (fun w => .negate (w.extractLsb' 8 3)) ∧
  ∀ (s : State) (a : RegField),
    ∃ t, exec (.negate a) s = .next t ∧
      OnlyRegSet s t .ac (BitVec.ofNat 16 (65536 - (s.reg (regOf s.params a)).toNat))

/-- Words with bits 15:11 = 10001 decode to add-register with A at bits 10:8 and B at bits 7:5, bits 4:0 ignored. In
every state it completes: under intended AC is the sum of the two registers modulo 2^16 and nothing else changes;
under unknown AC is the next draw (a free value, log 5), the draw is counted, and nothing else changes. The model's
own fields (parameters, host phase, draw count: log 5, 8, 9) are unchanged but for the draw count. (stated: R161) -/
def Obligations.AddRegisterResult : Prop :=
  RowDecodes 0x8800#16 0xF800#16 (fun w => .addRegister (w.extractLsb' 8 3) (w.extractLsb' 5 3)) ∧
  ∀ (s : State) (a b : RegField),
    (s.params.legacyRegB = .intended →
      ∃ t, exec (.addRegister a b) s = .next t ∧
        OnlyRegSet s t .ac (BitVec.ofNat 16 ((s.reg (regOf s.params a)).toNat + (s.reg (regOf s.params b)).toNat))) ∧
    (s.params.legacyRegB = .unknown →
      ∃ t, exec (.addRegister a b) s = .next t ∧ t.reg .ac = Config.legacyDraw s.draws ∧ t.draws = s.draws + 1 ∧
        RegsKeptBut s t [.ac] ∧ BytesKeptBut s t [] ∧ FlagsKept s t ∧ t.params = s.params ∧ t.phase = s.phase)

/-- Words with bits 15:11 = 10010 decode to add-immediate; in every state it completes, sets AC to x[regA] +
sext_16(imm8) modulo 2^16 and changes nothing else (regA only if it is AC). The model's own fields (parameters, host
phase, draw count: log 5, 8, 9) are unchanged. (stated: R162) -/
def Obligations.AddImmediateResult : Prop :=
  RowDecodes 0x9000#16 0xF800#16 (fun w => .addImmediate (w.extractLsb' 8 3) (w.extractLsb' 0 8)) ∧
  ∀ (s : State) (a : RegField) (imm8 : BitVec 8),
    ∃ t, exec (.addImmediate a imm8) s = .next t ∧
      OnlyRegSet s t .ac (BitVec.ofInt 16 ((s.reg (regOf s.params a)).toNat + imm8.toInt))

/-- Words with bits 15:11 = 10011 decode to subtract-register. In every state it completes: under intended AC is x[regA]
- x[regB] modulo 2^16 (in that order) and nothing else changes; under unknown AC is the next draw (a free value, log
5), the draw is counted, and nothing else changes. The model's own fields (parameters, host phase, draw count: log
5, 8, 9) are unchanged but for the draw count. (stated: R163) -/
def Obligations.SubtractRegisterResult : Prop :=
  RowDecodes 0x9800#16 0xF800#16 (fun w => .subtractRegister (w.extractLsb' 8 3) (w.extractLsb' 5 3)) ∧
  ∀ (s : State) (a b : RegField),
    (s.params.legacyRegB = .intended →
      ∃ t, exec (.subtractRegister a b) s = .next t ∧
        OnlyRegSet s t .ac (BitVec.ofNat 16 ((s.reg (regOf s.params a)).toNat + 65536 - (s.reg (regOf s.params b)).toNat))) ∧
    (s.params.legacyRegB = .unknown →
      ∃ t, exec (.subtractRegister a b) s = .next t ∧ t.reg .ac = Config.legacyDraw s.draws ∧ t.draws = s.draws + 1 ∧
        RegsKeptBut s t [.ac] ∧ BytesKeptBut s t [] ∧ FlagsKept s t ∧ t.params = s.params ∧ t.phase = s.phase)

/-- Words with bits 15:11 = 10100 decode to subtract-immediate; in every state it completes, sets AC to x[regA] -
sext_16(imm8) modulo 2^16 and changes nothing else. The model's own fields (parameters, host phase, draw count: log
5, 8, 9) are unchanged. (stated: R164) -/
def Obligations.SubtractImmediateResult : Prop :=
  RowDecodes 0xA000#16 0xF800#16 (fun w => .subtractImmediate (w.extractLsb' 8 3) (w.extractLsb' 0 8)) ∧
  ∀ (s : State) (a : RegField) (imm8 : BitVec 8),
    ∃ t, exec (.subtractImmediate a imm8) s = .next t ∧
      OnlyRegSet s t .ac (BitVec.ofInt 16 ((s.reg (regOf s.params a)).toNat - imm8.toInt))

/-- Words with bits 15:11 = 10111 decode to move with the source at bits 10:8 and the destination at bits 7:5, bits 4:0
ignored; in every state it completes, sets the register REG_MAP gives B (any but IR) to the value of the register
REG_MAP gives A (IR too) and changes nothing else; with both the same register nothing changes. A REG_MAP that names
IR as the destination (R11 makes that a write of IR, R22 and R119 deny it) is the statement
ExecuteWritesIrOnlyWhereTheMapNamesIt's (log 15). The model's own fields (parameters, host phase, draw count: log 5,
8, 9) are unchanged. (stated: R165) -/
def Obligations.MoveResult : Prop :=
  RowDecodes 0xB800#16 0xF800#16 (fun w => .move (w.extractLsb' 8 3) (w.extractLsb' 5 3)) ∧
  ∀ (s : State) (a b : RegField),
    regOf s.params b ≠ .ir →
    ∃ t, exec (.move a b) s = .next t ∧ OnlyRegSet s t (regOf s.params b) (s.reg (regOf s.params a)) ∧
      (regOf s.params a = regOf s.params b → t = s)

/-- Words with bits 15:12 = 1100 decode to jump with the target at bits 11:0; in every state it completes, sets PC to
zext_16(t12) and changes nothing else. The model's own fields (parameters, host phase, draw count: log 5, 8, 9) are
unchanged. (stated: R180) -/
def Obligations.JumpResult : Prop :=
  RowDecodes 0xC000#16 0xF000#16 (fun w => .jump (w.extractLsb' 0 12)) ∧
  ∀ (s : State) (t12 : BitVec 12), ∃ t, exec (.jump t12) s = .next t ∧ OnlyRegSet s t .pc (t12.zeroExtend 16)

/-- Words with bits 15:12 = 1101 decode to jump-if-zero. In every state it completes: if AC = 0x0000 PC becomes
zext_16(t12) and nothing else changes; otherwise nothing changes at all. The model's own fields (parameters, host
phase, draw count: log 5, 8, 9) are unchanged. (stated: R181) -/
def Obligations.JumpIfZeroResult : Prop :=
  RowDecodes 0xD000#16 0xF000#16 (fun w => .jumpIfZero (w.extractLsb' 0 12)) ∧
  ∀ (s : State) (t12 : BitVec 12),
    ∃ t, exec (.jumpIfZero t12) s = .next t ∧
      (s.reg .ac = 0x0000#16 → OnlyRegSet s t .pc (t12.zeroExtend 16)) ∧ (s.reg .ac ≠ 0x0000#16 → t = s)

/-- Words with bits 15:12 = 1110 decode to jump-if-negative. In every state it completes: if AC[15] = 1, which is AC
below 0 read as two's complement, PC becomes zext_16(t12) and nothing else changes; otherwise nothing changes at
all. The model's own fields (parameters, host phase, draw count: log 5, 8, 9) are unchanged. (stated: R182) -/
def Obligations.JumpIfNegativeResult : Prop :=
  RowDecodes 0xE000#16 0xF000#16 (fun w => .jumpIfNegative (w.extractLsb' 0 12)) ∧
  ∀ (s : State) (t12 : BitVec 12),
    ((s.reg .ac).getLsbD 15 = true ↔ (s.reg .ac).toInt < 0) ∧
    ∃ t, exec (.jumpIfNegative t12) s = .next t ∧
      ((s.reg .ac).getLsbD 15 = true → OnlyRegSet s t .pc (t12.zeroExtend 16)) ∧
      ((s.reg .ac).getLsbD 15 = false → t = s)

/-- Words with bits 15:12 = 1111 decode to call. Where the words at SP and SP + 2 have their second bytes, call
completes with the fetched PC stored at SP and the old BP at SP + 2, high bytes first, BP = SP + 2, SP = SP + 4, PC
= zext_16(t12), modulo 2^16, and no other register, flag or byte changed; otherwise it stops with the fault of R54
(SP = 0xFFFF or 0xFFFD under EDGE_WORD = fault). The model's own fields (parameters, host phase, draw count: log 5,
8, 9) are unchanged. The fault's name is the model's (log 13). (stated: R183) -/
def Obligations.CallPushesTheFrame : Prop :=
  RowDecodes 0xF000#16 0xF000#16 (fun w => .call (w.extractLsb' 0 12)) ∧
  ∀ (s : State) (t12 : BitVec 12),
    (s.wordInRange (s.reg .sp) ∧ s.wordInRange (s.reg .sp + 2#16) →
      ∃ t, exec (.call t12) s = .next t ∧ t.wordAt (s.reg .sp) = s.reg .pc ∧
        t.wordAt (s.reg .sp + 2#16) = s.reg .bp ∧ t.reg .bp = s.reg .sp + 2#16 ∧ t.reg .sp = s.reg .sp + 4#16 ∧
        t.reg .pc = t12.zeroExtend 16 ∧ RegsKeptBut s t [.sp, .bp, .pc] ∧
        BytesKeptBut s t [s.reg .sp, s.reg .sp + 1#16, s.reg .sp + 2#16, s.reg .sp + 3#16] ∧
        FlagsKept s t ∧ OwnKept s t) ∧
    (¬(s.wordInRange (s.reg .sp) ∧ s.wordInRange (s.reg .sp + 2#16)) →
      exec (.call t12) s = .fault (.wordAtTop .push))

/-- For every call that completes from a state with SP = s, BP = b and PC = p, and every later state with the same
parameters, BP = s + 2 and the words at s and s + 2 as the call left them, return completes with PC = p, BP = b and
SP = s. (stated: R184) -/
def Obligations.CallThenReturnRestoresTheCaller : Prop :=
  ∀ (s t u : State) (t12 : BitVec 12), exec (.call t12) s = .next t →
    u.params = s.params → u.reg .bp = s.reg .sp + 2#16 →
    u.wordAt (s.reg .sp) = t.wordAt (s.reg .sp) → u.wordAt (s.reg .sp + 2#16) = t.wordAt (s.reg .sp + 2#16) →
    ∃ v, exec .ret u = .next v ∧ v.reg .pc = s.reg .pc ∧ v.reg .bp = s.reg .bp ∧ v.reg .sp = s.reg .sp

/-- Where no field value selects IR, or the machine's irByField is kept: if execute, or exec of any instruction, answers
a next state, IR is unchanged (R22, R119). Where REG_MAP gives the destination field IR: with irByField = kept,
load-immediate, load-absolute, load-indirect and load-indexed (where the word has its second byte) and move complete
and leave the whole state as it is; with irByField = written they complete, set IR to the value they set any other
destination to and change nothing else (R11). The rules do not say which holds for such a map; the parameter
irByField, which keeps both, is the model's own (log 15). The model's own fields (parameters, host phase, draw
count: log 5, 8, 9) are unchanged. (derived from 10_state.md R22, 40_cycle.md R119, 00_scope.md R7, 00_scope.md R11) -/
def Obligations.ExecuteWritesIrOnlyWhereTheMapNamesIt : Prop :=
  (∀ s t : State, irOutOfReach s.params → execute s = .next t → t.reg .ir = s.reg .ir) ∧
  (∀ (i : Instr) (s t : State), irOutOfReach s.params → exec i s = .next t → t.reg .ir = s.reg .ir) ∧
  (∀ (s : State) (a b : RegField) (imm8 addr8 : BitVec 8) (off5 : BitVec 5), s.params.irByField = .kept →
    (regOf s.params a = .ir →
      exec (.loadImmediate a imm8) s = .next s ∧ exec (.loadAbsolute a addr8) s = .next s ∧
      (s.wordInRange (s.reg (regOf s.params b)) → exec (.loadIndirect a b) s = .next s) ∧
      (s.wordInRange (s.reg (regOf s.params b) + off5.signExtend 16) → exec (.loadIndexed a b off5) s = .next s)) ∧
    (regOf s.params b = .ir → exec (.move a b) s = .next s)) ∧
  (∀ (s : State) (a b : RegField) (imm8 addr8 : BitVec 8) (off5 : BitVec 5), s.params.irByField = .written →
    (regOf s.params a = .ir →
      (∃ t, exec (.loadImmediate a imm8) s = .next t ∧ OnlyRegSet s t .ir (imm8.signExtend 16)) ∧
      (∃ t, exec (.loadAbsolute a addr8) s = .next t ∧ OnlyRegSet s t .ir (s.wordAt (addr8.zeroExtend 16))) ∧
      (s.wordInRange (s.reg (regOf s.params b)) →
        ∃ t, exec (.loadIndirect a b) s = .next t ∧ OnlyRegSet s t .ir (s.wordAt (s.reg (regOf s.params b)))) ∧
      (s.wordInRange (s.reg (regOf s.params b) + off5.signExtend 16) →
        ∃ t, exec (.loadIndexed a b off5) s = .next t ∧
          OnlyRegSet s t .ir (s.wordAt (s.reg (regOf s.params b) + off5.signExtend 16)))) ∧
    (regOf s.params b = .ir →
      ∃ t, exec (.move a b) s = .next t ∧ OnlyRegSet s t .ir (s.reg (regOf s.params a))))
end

