-- ==== Sys2Proof/Laws/Assembler.lean ====
section
/-! SUPPORT. What naming a register and storing a number in range do, in the assembler of R99: lemmas that proofs cite
instead of unfolding the search over field values or the bit vectors. -/

namespace Sys2Proof

variable {p : Config.Params} {r : Reg}

/-- What finding a field for a register answers: a field value that selects it. -/
theorem regOf_of_fieldOf {f : RegField} (h : fieldOf p r = some f) : regOf p f = r := by
  simpa using List.find?_some h

/-- Every field value is in the list of the eight. -/
theorem mem_regFields : ∀ f : RegField, f ∈ regFields := by decide

/-- A register has a field exactly if some field value selects it. -/
theorem fieldOf_isSome_iff : (fieldOf p r).isSome = true ↔ ∃ f : RegField, regOf p f = r := by
  rw [fieldOf, List.find?_isSome]
  exact ⟨fun ⟨f, _, h⟩ => ⟨f, by simpa using h⟩, fun ⟨f, h⟩ => ⟨f, mem_regFields f, by simpa using h⟩⟩

/-- A register that can be named has a field that selects it. -/
theorem fieldOf_of_regNameable (h : regNameable p r = true) : ∃ f, fieldOf p r = some f ∧ regOf p f = r := by
  rw [regNameable, Bool.and_eq_true] at h
  obtain ⟨f, hf⟩ := Option.isSome_iff_exists.1 h.2
  exact ⟨f, hf, regOf_of_fieldOf hf⟩

/-- A register can be named exactly if it is in R99's list and some field value selects it. -/
theorem regNameable_iff : regNameable p r = true ↔ r ∈ asmRegisters ∧ ∃ f : RegField, regOf p f = r := by
  rw [regNameable, Bool.and_eq_true, decide_eq_true_iff, fieldOf_isSome_iff]

theorem immInRange_iff {imm : Int} : immInRange imm = true ↔ -128 ≤ imm ∧ imm ≤ 255 := decide_eq_true_iff

theorem addrInRange_iff {addr : Nat} : addrInRange addr = true ↔ addr ≤ 255 := decide_eq_true_iff

theorem offInRange_iff {off : Int} : offInRange off = true ↔ -16 ≤ off ∧ off ≤ 15 := decide_eq_true_iff

theorem targetInRange_iff {target : Nat} : targetInRange target = true ↔ target ≤ 0xFFF := decide_eq_true_iff

/-- The byte an immediate is stored as (R99: 128..255 stored as the byte). -/
theorem ofInt8_toNat (imm : Int) : ((BitVec.ofInt 8 imm).toNat : Int) = imm % 256 := by
  rw [BitVec.toNat_ofInt]; omega

/-- An offset in range is read back as itself. -/
theorem ofInt5_toInt {off : Int} (h : -16 ≤ off) (h' : off ≤ 15) : (BitVec.ofInt 5 off).toInt = off := by
  rw [BitVec.toInt_ofInt]
  exact Int.bmod_eq_of_le (by omega) (by omega)

end Sys2Proof
end

