-- ==== Sys2Proof/Laws/Encoding.lean ====
section
/-! SUPPORT. Instruction words as numbers: each field of a word, each format of the encoder and the opcode map's masks as
arithmetic on `toNat`, so that facts about encodings are closed by `omega`. -/

namespace Sys2Proof

/-- A concatenation of two parts as a number. -/
theorem toNat_append_eq {n k : Nat} (x : BitVec n) (y : BitVec k) : (x ++ y).toNat = x.toNat * 2 ^ k + y.toNat := by
  rw [BitVec.toNat_append, ← Nat.shiftLeft_add_eq_or_of_lt y.isLt, Nat.shiftLeft_eq]

/-- A field of a word as a number. -/
theorem toNat_field (w : Word) (lo n : Nat) : (w.extractLsb' lo n).toNat = w.toNat / 2 ^ lo % 2 ^ n := by
  rw [BitVec.extractLsb'_toNat, Nat.shiftRight_eq_div_pow]

section Fields
variable (w : Word)

theorem classField_toNat : (classField w).toNat = w.toNat / 16384 % 4 := toNat_field w 14 2
theorem sub3Field_toNat : (sub3Field w).toNat = w.toNat / 2048 % 8 := toNat_field w 11 3
theorem sub2Field_toNat : (sub2Field w).toNat = w.toNat / 4096 % 4 := toNat_field w 12 2
theorem regAField_toNat : (regAField w).toNat = w.toNat / 256 % 8 := toNat_field w 8 3
theorem regBField_toNat : (regBField w).toNat = w.toNat / 32 % 8 := toNat_field w 5 3
theorem imm8Field_toNat : (imm8Field w).toNat = w.toNat / 1 % 256 := toNat_field w 0 8
theorem off5Field_toNat : (off5Field w).toNat = w.toNat / 1 % 32 := toNat_field w 0 5
theorem t12Field_toNat : (t12Field w).toNat = w.toNat / 1 % 4096 := toNat_field w 0 12

end Fields

section Formats
variable (sub3 : BitVec 3) (sub2 : BitVec 2) (a b : RegField) (imm8 : BitVec 8) (off5 : BitVec 5) (t12 : BitVec 12)

theorem encodeF_toNat : (encodeF sub3).toNat = sub3.toNat * 2048 := by
  unfold encodeF; rw [toNat_append_eq, toNat_append_eq]; simp

theorem encodeTI_toNat : (encodeTI sub3 a imm8).toNat = 16384 + sub3.toNat * 2048 + a.toNat * 256 + imm8.toNat := by
  unfold encodeTI; rw [toNat_append_eq, toNat_append_eq, toNat_append_eq]; simp; omega

theorem encodeTR_toNat : (encodeTR sub3 a b off5).toNat =
    16384 + sub3.toNat * 2048 + a.toNat * 256 + b.toNat * 32 + off5.toNat := by
  unfold encodeTR; rw [toNat_append_eq, toNat_append_eq, toNat_append_eq, toNat_append_eq]; simp; omega

theorem encodeMR_toNat : (encodeMR sub3 a b).toNat = 32768 + sub3.toNat * 2048 + a.toNat * 256 + b.toNat * 32 := by
  unfold encodeMR; rw [toNat_append_eq, toNat_append_eq, toNat_append_eq, toNat_append_eq]; simp; omega

theorem encodeMI_toNat : (encodeMI sub3 a imm8).toNat = 32768 + sub3.toNat * 2048 + a.toNat * 256 + imm8.toNat := by
  unfold encodeMI; rw [toNat_append_eq, toNat_append_eq, toNat_append_eq]; simp; omega

theorem encodeJ_toNat : (encodeJ sub2 t12).toNat = 49152 + sub2.toNat * 4096 + t12.toNat := by
  unfold encodeJ; rw [toNat_append_eq, toNat_append_eq]; simp; omega

end Formats

/-! ### The decoder by opcode number -/

/-- The decoder as one choice by the number in bits 15:11 (a jump row is two of these numbers). -/
theorem decode_eq_byOpcode (w : Word) : decode w =
    match w.toNat / 2048 with
    | 0 => .halt | 1 => .nop | 2 => .ret | 3 => .error
    | 4 => .illegalFlow100 | 5 => .illegalFlow101 | 6 => .illegalFlow110 | 7 => .illegalFlow111
    | 8 => .loadImmediate (regAField w) (imm8Field w)
    | 9 => .loadAbsolute (regAField w) (imm8Field w)
    | 10 => .loadIndirect (regAField w) (regBField w)
    | 11 => .loadIndexed (regAField w) (regBField w) (off5Field w)
    | 12 => .storeAbsolute (regAField w) (imm8Field w)
    | 13 => .storeIndirect (regAField w) (regBField w)
    | 14 => .storeIndexed (regAField w) (regBField w) (off5Field w)
    | 15 => .illegalTransfer111
    | 16 => .negate (regAField w)
    | 17 => .addRegister (regAField w) (regBField w)
    | 18 => .addImmediate (regAField w) (imm8Field w)
    | 19 => .subtractRegister (regAField w) (regBField w)
    | 20 => .subtractImmediate (regAField w) (imm8Field w)
    | 21 => .illegalManipulate101
    | 22 => .illegalManipulate110
    | 23 => .move (regAField w) (regBField w)
    | 24 => .jump (t12Field w) | 25 => .jump (t12Field w)
    | 26 => .jumpIfZero (t12Field w) | 27 => .jumpIfZero (t12Field w)
    | 28 => .jumpIfNegative (t12Field w) | 29 => .jumpIfNegative (t12Field w)
    | _ => .call (t12Field w) := by
  have hc := classField_toNat w
  have h3 := sub3Field_toNat w
  have h2 := sub2Field_toNat w
  have hw := w.isLt
  have : w.toNat / 2048 < 32 := by omega
  generalize hk : w.toNat / 2048 = k at *
  have hc' : (classField w).toNat = k / 8 := by omega
  have h3' : (sub3Field w).toNat = k % 8 := by omega
  have h2' : (sub2Field w).toNat = k / 2 % 4 := by omega
  clear hc h3 h2
  have key : ∀ {n : Nat} (x : BitVec n) (v : Nat), x.toNat = v → ∀ h : v < 2 ^ n, x.toFin = ⟨v, h⟩ :=
    fun _ _ hx _ => Fin.ext hx
  unfold decode decodeFlow decodeTransfer decodeManipulate decodeJump
  interval_cases k <;>
    (rw [key (classField w) _ hc' (by decide), key (sub3Field w) _ h3' (by decide),
      key (sub2Field w) _ h2' (by decide)]; rfl)

/-! ### The masks of the opcode map -/

/-- Shifting right and back clears the low bits. -/
theorem clearLow_toNat (w : Word) (k : Nat) : ((w >>> k) <<< k).toNat = w.toNat / 2 ^ k * 2 ^ k := by
  rw [BitVec.toNat_shiftLeft, BitVec.toNat_ushiftRight, Nat.shiftRight_eq_div_pow, Nat.shiftLeft_eq,
    Nat.mod_eq_of_lt (lt_of_le_of_lt (Nat.div_mul_le_self _ _) w.isLt)]

/-- The mask of the flow, transfer and manipulate rows keeps bits 15:11. -/
theorem and_maskF800_toNat (w : Word) : (w &&& 0xF800#16).toNat = w.toNat / 2048 * 2048 := by
  have : w &&& 0xF800#16 = (w >>> 11) <<< 11 := by ext i hi; interval_cases i <;> simp
  rw [this]; exact clearLow_toNat w 11

/-- The mask of the jump rows keeps bits 15:12. -/
theorem and_maskF000_toNat (w : Word) : (w &&& 0xF000#16).toNat = w.toNat / 4096 * 4096 := by
  have : w &&& 0xF000#16 = (w >>> 12) <<< 12 := by ext i hi; interval_cases i <;> simp
  rw [this]; exact clearLow_toNat w 12

/-- Selecting a row whose mask is 0xF800, as arithmetic. -/
theorem selects_F800 (mn : String) (bits used w : Word) :
    (OpcodeRow.mk mn bits 0xF800#16 used).selects w = true ↔ w.toNat / 2048 * 2048 = bits.toNat := by
  simp only [OpcodeRow.selects, beq_iff_eq, ← and_maskF800_toNat, BitVec.toNat_inj]

/-- Selecting a row whose mask is 0xF000, as arithmetic. -/
theorem selects_F000 (mn : String) (bits used w : Word) :
    (OpcodeRow.mk mn bits 0xF000#16 used).selects w = true ↔ w.toNat / 4096 * 4096 = bits.toNat := by
  simp only [OpcodeRow.selects, beq_iff_eq, ← and_maskF000_toNat, BitVec.toNat_inj]

end Sys2Proof
end

