-- ==== Sys2Proof/Laws/Memory.lean ====
section
/-! SUPPORT. The memory list: a byte read after a byte written, and the canonical form that every operation keeps. -/

namespace Sys2Proof.Machine.Memory

@[simp] theorem readByte_nil (a : Nat) : readByte [] a = unlistedByte := rfl

theorem readByte_cons (k a : Nat) (b : Byte) (rest : Memory) :
    readByte ((k, b) :: rest) a = if k = a then b else readByte rest a := rfl

theorem erase_cons (k a : Nat) (b : Byte) (rest : Memory) :
    erase ((k, b) :: rest) a = if k = a then erase rest a else (k, b) :: erase rest a := by
  by_cases h : k = a <;> simp [erase, h]

/-! ### Read after write -/

theorem readByte_erase (m : Memory) (a c : Nat) :
    readByte (erase m a) c = if c = a then unlistedByte else readByte m c := by
  induction m with
  | nil => simp [erase]
  | cons x rest ih =>
    obtain ⟨k, d⟩ := x
    rw [erase_cons, readByte_cons]
    by_cases hk : k = a
    · rw [if_pos hk, ih]; grind
    · rw [if_neg hk, readByte_cons, ih]; grind

theorem keys_erase (m : Memory) (a : Nat) : ∀ x ∈ erase m a, x.1 ≠ a := by
  intro x hx; simpa using (List.mem_filter.mp hx).2

theorem readByte_insert (m : Memory) (a c : Nat) (b : Byte) (hm : ∀ x ∈ m, x.1 ≠ a) :
    readByte (insert m a b) c = if c = a then b else readByte m c := by
  induction m with
  | nil => simp [insert, readByte_cons, eq_comm]
  | cons x rest ih =>
    obtain ⟨k, d⟩ := x
    have hk : k ≠ a := hm (k, d) (by simp)
    have ih := ih fun x hx => hm x (by simp [hx])
    simp only [insert]
    by_cases hlt : a < k
    · rw [if_pos hlt, readByte_cons]; grind
    · rw [if_neg hlt, readByte_cons, readByte_cons, ih]; grind

/-- A byte read after a byte written: the byte written at its address, the old byte elsewhere. It needs no canonical form. -/
theorem readByte_writeByte (m : Memory) (a c : Nat) (b : Byte) :
    readByte (writeByte m a b) c = if c = a then b else readByte m c := by
  unfold writeByte
  by_cases hb : b = unlistedByte
  · rw [if_pos hb, readByte_erase, hb]
  · rw [if_neg hb, readByte_insert _ _ _ _ (keys_erase m a), readByte_erase]; grind

@[simp] theorem readByte_writeByte_same (m : Memory) (a : Nat) (b : Byte) : readByte (writeByte m a b) a = b := by
  rw [readByte_writeByte, if_pos rfl]

theorem readByte_writeByte_ne (m : Memory) {a c : Nat} (b : Byte) (h : c ≠ a) :
    readByte (writeByte m a b) c = readByte m c := by
  rw [readByte_writeByte, if_neg h]

/-! ### The canonical form -/

theorem wfFrom_mono {low low' : Nat} {m : Memory} (h : wfFrom low m = true) (hle : low' ≤ low) :
    wfFrom low' m = true := by
  cases m with
  | nil => rfl
  | cons x rest =>
    obtain ⟨k, d⟩ := x
    simp only [wfFrom, Bool.and_eq_true, decide_eq_true_eq] at h ⊢
    exact ⟨⟨⟨by omega, h.1.1.2⟩, h.1.2⟩, h.2⟩

theorem wfFrom_erase {low : Nat} {m : Memory} (h : wfFrom low m = true) (a : Nat) : wfFrom low (erase m a) = true := by
  induction m generalizing low with
  | nil => rfl
  | cons x rest ih =>
    obtain ⟨k, d⟩ := x
    simp only [wfFrom, Bool.and_eq_true, decide_eq_true_eq] at h
    rw [erase_cons]
    by_cases hk : k = a
    · rw [if_pos hk]; exact wfFrom_mono (ih h.2) (by omega)
    · rw [if_neg hk]
      simp only [wfFrom, Bool.and_eq_true, decide_eq_true_eq]
      exact ⟨h.1, ih h.2⟩

theorem wfFrom_insert {low : Nat} {m : Memory} (h : wfFrom low m = true) {a : Nat} {b : Byte} (hl : low ≤ a)
    (ha : a < size) (hb : b ≠ unlistedByte) (hm : ∀ x ∈ m, x.1 ≠ a) : wfFrom low (insert m a b) = true := by
  induction m generalizing low with
  | nil => simp [insert, wfFrom, hl, ha, hb]
  | cons x rest ih =>
    obtain ⟨k, d⟩ := x
    have hk : k ≠ a := hm (k, d) (by simp)
    simp only [wfFrom, Bool.and_eq_true, decide_eq_true_eq] at h
    simp only [insert]
    by_cases hlt : a < k
    · rw [if_pos hlt]
      simp only [wfFrom, Bool.and_eq_true, decide_eq_true_eq]
      exact ⟨⟨⟨hl, ha⟩, hb⟩, ⟨⟨by omega, h.1.1.2⟩, h.1.2⟩, h.2⟩
    · rw [if_neg hlt]
      simp only [wfFrom, Bool.and_eq_true, decide_eq_true_eq]
      exact ⟨h.1, ih h.2 (by omega) fun x hx => hm x (by simp [hx])⟩

/-- A byte write inside the array keeps the canonical form. -/
theorem wf_writeByte {m : Memory} (h : m.wf = true) {a : Nat} (ha : a < size) (b : Byte) :
    (m.writeByte a b).wf = true := by
  unfold wf writeByte
  by_cases hb : b = unlistedByte
  · rw [if_pos hb]; exact wfFrom_erase h a
  · rw [if_neg hb]; exact wfFrom_insert (wfFrom_erase h a) (by omega) ha hb (keys_erase m a)

/-- A copy that ends inside the array keeps the canonical form. -/
theorem wf_writeBytes {m : Memory} (h : m.wf = true) (bytes : List Byte) (a : Nat)
    (ha : a + bytes.length ≤ size) : (m.writeBytes a bytes).wf = true := by
  induction bytes generalizing m a with
  | nil => exact h
  | cons b rest ih =>
    simp only [List.length_cons] at ha
    exact ih (wf_writeByte h (by omega) b) (a + 1) (by omega)

/-- Memories in canonical form from `low` list nothing below it. -/
theorem readByte_below {low : Nat} {m : Memory} (h : wfFrom low m = true) {a : Nat} (ha : a < low) :
    readByte m a = unlistedByte := by
  induction m generalizing low with
  | nil => rfl
  | cons x rest ih =>
    obtain ⟨k, d⟩ := x
    simp only [wfFrom, Bool.and_eq_true, decide_eq_true_eq] at h
    rw [readByte_cons, if_neg (by omega)]
    exact ih h.2 (by omega)

/-- Memories in canonical form that read alike are the same list. -/
theorem eq_of_readByte_eq {low : Nat} {m n : Memory} (hm : wfFrom low m = true) (hn : wfFrom low n = true)
    (h : ∀ a, readByte m a = readByte n a) : m = n := by
  induction m generalizing low n with
  | nil =>
    cases n with
    | nil => rfl
    | cons y rest =>
      obtain ⟨k, d⟩ := y
      have := h k
      simp only [wfFrom, Bool.and_eq_true, decide_eq_true_eq] at hn
      simp only [readByte_nil, readByte_cons, if_true] at this
      exact absurd this.symm hn.1.2
  | cons x rest ih =>
    obtain ⟨k, d⟩ := x
    simp only [wfFrom, Bool.and_eq_true, decide_eq_true_eq] at hm
    cases n with
    | nil =>
      have := h k
      simp only [readByte_nil, readByte_cons, if_true] at this
      exact absurd this hm.1.2
    | cons y rest' =>
      obtain ⟨k', d'⟩ := y
      simp only [wfFrom, Bool.and_eq_true, decide_eq_true_eq] at hn
      have hk : k = k' := by
        rcases Nat.lt_trichotomy k k' with hlt | heq | hgt
        · have := h k
          rw [readByte_cons, readByte_cons, if_pos rfl, if_neg (by omega), readByte_below hn.2 (by omega)] at this
          exact absurd this hm.1.2
        · exact heq
        · have := h k'
          rw [readByte_cons, readByte_cons, if_pos rfl, if_neg (by omega), readByte_below hm.2 (by omega)] at this
          exact absurd this.symm hn.1.2
      subst hk
      have hd : d = d' := by have := h k; simpa [readByte_cons] using this
      subst hd
      have : rest = rest' := by
        refine ih hm.2 hn.2 fun a => ?_
        by_cases ha : a < k + 1
        · rw [readByte_below hm.2 ha, readByte_below hn.2 ha]
        · have := h a; rw [readByte_cons, readByte_cons, if_neg (by omega), if_neg (by omega)] at this; exact this
      rw [this]

/-! ### Copies -/

/-- A byte read after a copy: the image's byte inside the copy, the old byte outside it. -/
theorem readByte_writeBytes (m : Memory) (bytes : List Byte) (a c : Nat) :
    readByte (m.writeBytes a bytes) c
      = if h : a ≤ c ∧ c - a < bytes.length then bytes[c - a]'h.2 else readByte m c := by
  induction bytes generalizing m a with
  | nil => simp [writeBytes]
  | cons b rest ih =>
    rw [writeBytes, ih, readByte_writeByte]
    by_cases hac : c = a
    · subst hac; simp
    · by_cases hin : a + 1 ≤ c ∧ c - (a + 1) < rest.length
      · have h2 : a ≤ c ∧ c - a < (b :: rest).length := ⟨by omega, by simp; omega⟩
        rw [dif_pos hin, dif_pos h2]
        have : c - a = (c - (a + 1)) + 1 := by omega
        simp [this]
      · have h2 : ¬(a ≤ c ∧ c - a < (b :: rest).length) := by simp; omega
        rw [dif_neg hin, dif_neg h2, if_neg hac]

end Sys2Proof.Machine.Memory
end

