-- ==== Sys2Proof/Laws/State.lean ====
section
/-! SUPPORT. One lemma per field per update of State, and the register file's read-after-write. -/

namespace Sys2Proof.Machine

section RegFileLaws
variable (f : RegFile) (r q : Reg) (v : Word)

@[simp] theorem RegFile.get_set_same : (f.set r v).get r = v := by cases r <;> rfl

theorem RegFile.get_set_ne (h : q ≠ r) : (f.set r v).get q = f.get q := by
  cases r <;> cases q <;> first | rfl | exact absurd rfl h

theorem RegFile.get_set : (f.set r v).get q = if q = r then v else f.get q := by
  by_cases h : q = r
  · subst h; simp
  · simp [h, RegFile.get_set_ne]

/-- Register files that read alike are equal. -/
theorem RegFile.ext_get {f g : RegFile} (h : ∀ q, f.get q = g.get q) : f = g := by
  cases f; cases g
  have h0 := h .r0; have h1 := h .r1; have h2 := h .r2; have h3 := h .r3; have h4 := h .ac
  have h5 := h .sp; have h6 := h .bp; have h7 := h .pc; have h8 := h .ir
  simp only [RegFile.get] at h0 h1 h2 h3 h4 h5 h6 h7 h8
  subst_vars; rfl

end RegFileLaws

variable (s : State) (r q : Reg) (v : Word) (a : Word) (b : Byte) (fld : RegField) (t12 : BitVec 12)

/-! ### `setReg` -/
@[simp] theorem State.setReg_regs : (s.setReg r v).regs = s.regs.set r v := rfl
@[simp] theorem State.setReg_halted : (s.setReg r v).halted = s.halted := rfl
@[simp] theorem State.setReg_errored : (s.setReg r v).errored = s.errored := rfl
@[simp] theorem State.setReg_mem : (s.setReg r v).mem = s.mem := rfl
@[simp] theorem State.setReg_params : (s.setReg r v).params = s.params := rfl
@[simp] theorem State.setReg_phase : (s.setReg r v).phase = s.phase := rfl
@[simp] theorem State.setReg_draws : (s.setReg r v).draws = s.draws := rfl
@[simp] theorem State.setReg_byteAt : (s.setReg r v).byteAt a = s.byteAt a := rfl
@[simp] theorem State.setReg_named : (s.setReg r v).named fld = s.named fld := rfl

/-- A register read after a register write: the value written, or what the other register held. -/
@[simp] theorem State.setReg_reg : (s.setReg r v).reg q = if q = r then v else s.reg q :=
  RegFile.get_set _ _ _ _

/-! ### `setFieldReg`, `setAC`, `jumpTo`: writes of one register -/
/-- A write through a field that selects a register other than IR. -/
theorem State.setFieldReg_of_ne_ir (h : regOf s.params fld ≠ .ir) :
    s.setFieldReg fld v = s.setReg (regOf s.params fld) v := if_neg h
/-- A write through a field that selects IR, where the machine keeps IR, is no write. -/
theorem State.setFieldReg_of_kept (h : regOf s.params fld = .ir) (hk : s.params.irByField = .kept) :
    s.setFieldReg fld v = s := by
  rw [setFieldReg, if_pos (show s.named fld = .ir from h), setIrByField, hk]
/-- A write through a field is a write of the register it selects, where the machine writes IR like any other. -/
theorem State.setFieldReg_of_written (hw : s.params.irByField = .written) :
    s.setFieldReg fld v = s.setReg (regOf s.params fld) v := by
  by_cases h : regOf s.params fld = .ir
  · rw [setFieldReg, if_pos (show s.named fld = .ir from h), setIrByField, hw, h]
  · exact setFieldReg_of_ne_ir _ _ _ h
/-- What a write through a field can do: nothing, where it selects IR and the machine keeps IR, or one register write. -/
theorem State.setFieldReg_cases :
    ((regOf s.params fld = .ir ∧ s.params.irByField = .kept) ∧ s.setFieldReg fld v = s) ∨
      (¬(regOf s.params fld = .ir ∧ s.params.irByField = .kept) ∧
        s.setFieldReg fld v = s.setReg (regOf s.params fld) v) := by
  by_cases h : regOf s.params fld = .ir
  · cases hk : s.params.irByField with
    | kept => exact .inl ⟨⟨h, rfl⟩, setFieldReg_of_kept _ _ _ h hk⟩
    | written => exact .inr ⟨fun hn => Config.IrByField.noConfusion hn.2, setFieldReg_of_written _ _ _ hk⟩
  · exact .inr ⟨fun hn => h hn.1, setFieldReg_of_ne_ir _ _ _ h⟩
@[simp] theorem State.setFieldReg_mem : (s.setFieldReg fld v).mem = s.mem := by
  rcases s.setFieldReg_cases v fld with ⟨-, h⟩ | ⟨-, h⟩ <;> rw [h]; rfl
@[simp] theorem State.setFieldReg_halted : (s.setFieldReg fld v).halted = s.halted := by
  rcases s.setFieldReg_cases v fld with ⟨-, h⟩ | ⟨-, h⟩ <;> rw [h]; rfl
@[simp] theorem State.setFieldReg_errored : (s.setFieldReg fld v).errored = s.errored := by
  rcases s.setFieldReg_cases v fld with ⟨-, h⟩ | ⟨-, h⟩ <;> rw [h]; rfl
@[simp] theorem State.setFieldReg_params : (s.setFieldReg fld v).params = s.params := by
  rcases s.setFieldReg_cases v fld with ⟨-, h⟩ | ⟨-, h⟩ <;> rw [h]; rfl
@[simp] theorem State.setFieldReg_phase : (s.setFieldReg fld v).phase = s.phase := by
  rcases s.setFieldReg_cases v fld with ⟨-, h⟩ | ⟨-, h⟩ <;> rw [h]; rfl
@[simp] theorem State.setFieldReg_draws : (s.setFieldReg fld v).draws = s.draws := by
  rcases s.setFieldReg_cases v fld with ⟨-, h⟩ | ⟨-, h⟩ <;> rw [h]; rfl
theorem State.fieldReg_eq : s.fieldReg fld = s.reg (regOf s.params fld) := rfl
theorem State.named_eq : s.named fld = regOf s.params fld := rfl
theorem State.setAC_eq : s.setAC v = s.setReg .ac v := rfl
theorem State.jumpTo_eq : s.jumpTo t12 = s.setReg .pc (t12.zeroExtend 16) := rfl

/-! ### `putByte` -/
@[simp] theorem State.putByte_regs : (s.putByte a b).regs = s.regs := rfl
@[simp] theorem State.putByte_halted : (s.putByte a b).halted = s.halted := rfl
@[simp] theorem State.putByte_errored : (s.putByte a b).errored = s.errored := rfl
@[simp] theorem State.putByte_mem : (s.putByte a b).mem = s.mem.writeByte a.toNat b := rfl
@[simp] theorem State.putByte_params : (s.putByte a b).params = s.params := rfl
@[simp] theorem State.putByte_phase : (s.putByte a b).phase = s.phase := rfl
@[simp] theorem State.putByte_draws : (s.putByte a b).draws = s.draws := rfl
@[simp] theorem State.putByte_reg : (s.putByte a b).reg q = s.reg q := rfl

/-! ### `setHalted` -/
@[simp] theorem State.setHalted_regs : s.setHalted.regs = s.regs := rfl
@[simp] theorem State.setHalted_halted : s.setHalted.halted = true := rfl
@[simp] theorem State.setHalted_errored : s.setHalted.errored = s.errored := rfl
@[simp] theorem State.setHalted_mem : s.setHalted.mem = s.mem := rfl
@[simp] theorem State.setHalted_params : s.setHalted.params = s.params := rfl
@[simp] theorem State.setHalted_phase : s.setHalted.phase = s.phase := rfl
@[simp] theorem State.setHalted_draws : s.setHalted.draws = s.draws := rfl
@[simp] theorem State.setHalted_reg : s.setHalted.reg q = s.reg q := rfl

/-! ### `setErrored` (and `illegalWord`, which is it) -/
@[simp] theorem State.illegalWord_eq : s.illegalWord = s.setErrored := rfl
@[simp] theorem State.setErrored_regs : s.setErrored.regs = s.regs := rfl
@[simp] theorem State.setErrored_halted : s.setErrored.halted = s.halted := rfl
@[simp] theorem State.setErrored_errored : s.setErrored.errored = true := rfl
@[simp] theorem State.setErrored_mem : s.setErrored.mem = s.mem := rfl
@[simp] theorem State.setErrored_params : s.setErrored.params = s.params := rfl
@[simp] theorem State.setErrored_phase : s.setErrored.phase = s.phase := rfl
@[simp] theorem State.setErrored_draws : s.setErrored.draws = s.draws := rfl
@[simp] theorem State.setErrored_reg : s.setErrored.reg q = s.reg q := rfl

/-! ### `afterDraw` -/
@[simp] theorem State.afterDraw_regs : s.afterDraw.regs = s.regs := rfl
@[simp] theorem State.afterDraw_halted : s.afterDraw.halted = s.halted := rfl
@[simp] theorem State.afterDraw_errored : s.afterDraw.errored = s.errored := rfl
@[simp] theorem State.afterDraw_mem : s.afterDraw.mem = s.mem := rfl
@[simp] theorem State.afterDraw_params : s.afterDraw.params = s.params := rfl
@[simp] theorem State.afterDraw_phase : s.afterDraw.phase = s.phase := rfl
@[simp] theorem State.afterDraw_draws : s.afterDraw.draws = s.draws + 1 := rfl
@[simp] theorem State.afterDraw_reg : s.afterDraw.reg q = s.reg q := rfl

end Sys2Proof.Machine
end

