-- ==== Sys2Proof/Laws/Ops.lean ====
section
/-! SUPPORT. One lemma per shared operation that says what it can do, which proofs cite instead of unfolding it. -/

namespace Sys2Proof.Machine

variable {s t : State} {why : Access} {a v : Word}

/-! ### Continuing after a word access -/

@[simp] theorem orFault_ok {α σ : Type} (x : α) (k : α → Host.Outcome σ Fault Refusal) : orFault (.ok x) k = k x := rfl

@[simp] theorem orFault_error {α σ : Type} (f : Fault) (k : α → Host.Outcome σ Fault Refusal) :
    orFault (.error f) k = .fault f := rfl

theorem orFault_next {α σ : Type} {x : Except Fault α} {k : α → Host.Outcome σ Fault Refusal} {r : σ}
    (h : orFault x k = .next r) : ∃ y, x = .ok y ∧ k y = .next r := by
  cases x with
  | ok y => exact ⟨y, rfl, h⟩
  | error f => cases h

theorem orFault_fault {α σ : Type} {x : Except Fault α} {k : α → Host.Outcome σ Fault Refusal} {f : Fault}
    (h : orFault x k = .fault f) : x = .error f ∨ ∃ y, x = .ok y ∧ k y = .fault f := by
  cases x with
  | ok y => exact .inr ⟨y, rfl, h⟩
  | error g => cases h; exact .inl rfl

/-! ### Word accesses -/

theorem secondAddr_inRange (h : s.wordInRange a) : secondAddr s.params.edgeWord a = some (a + 1#16) := by
  unfold secondAddr
  rcases h with h | h
  · rw [h]
  · cases s.params.edgeWord <;> simp [h]

theorem secondAddr_outOfRange (h : ¬s.wordInRange a) : secondAddr s.params.edgeWord a = none := by
  unfold secondAddr
  rw [State.wordInRange, not_or, not_ne_iff] at h
  cases he : s.params.edgeWord with
  | wrap => exact absurd he h.1
  | fault => simp [h.2]

/-- A word read that has its second byte answers the word there. -/
theorem readWord_inRange (h : s.wordInRange a) : s.readWord why a = .ok (s.wordAt a) := by
  simp [State.readWord, secondAddr_inRange h, State.wordAt, joinBytes]

/-- A word read without a second byte is refused. -/
theorem readWord_outOfRange (h : ¬s.wordInRange a) : s.readWord why a = .error (.wordAtTop why) := by
  simp [State.readWord, secondAddr_outOfRange h]

/-- What a word read can do. -/
theorem readWord_ok {w : Word} (h : s.readWord why a = .ok w) : s.wordInRange a ∧ w = s.wordAt a := by
  by_cases hr : s.wordInRange a
  · rw [readWord_inRange hr] at h; cases h; exact ⟨hr, rfl⟩
  · rw [readWord_outOfRange hr] at h; cases h

/-- Both bytes of `v` written from `a` up. -/
def State.putWord (s : State) (a v : Word) : State := (s.putByte a (highByte v)).putByte (a + 1#16) (lowByte v)

/-- A word write that has its second byte writes both bytes. -/
theorem writeWord_inRange (h : s.wordInRange a) : s.writeWord why a v = .ok (s.putWord a v) := by
  simp [State.writeWord, secondAddr_inRange h, State.putWord]

/-- A word write without a second byte is refused. -/
theorem writeWord_outOfRange (h : ¬s.wordInRange a) : s.writeWord why a v = .error (.wordAtTop why) := by
  simp [State.writeWord, secondAddr_outOfRange h]

/-- What a word write can do. -/
theorem writeWord_ok (h : s.writeWord why a v = .ok t) : s.wordInRange a ∧ t = s.putWord a v := by
  by_cases hr : s.wordInRange a
  · rw [writeWord_inRange hr] at h; cases h; exact ⟨hr, rfl⟩
  · rw [writeWord_outOfRange hr] at h; cases h

/-! ### What a word write leaves -/

@[simp] theorem putWord_regs : (s.putWord a v).regs = s.regs := rfl
@[simp] theorem putWord_reg (q : Reg) : (s.putWord a v).reg q = s.reg q := rfl
@[simp] theorem putWord_halted : (s.putWord a v).halted = s.halted := rfl
@[simp] theorem putWord_errored : (s.putWord a v).errored = s.errored := rfl
@[simp] theorem putWord_params : (s.putWord a v).params = s.params := rfl
@[simp] theorem putWord_phase : (s.putWord a v).phase = s.phase := rfl
@[simp] theorem putWord_draws : (s.putWord a v).draws = s.draws := rfl

/-- An address and the next one, modulo 2^16, differ. -/
theorem succ_toNat_ne (a : Word) : (a + 1#16).toNat ≠ a.toNat := by
  have := a.isLt
  rw [BitVec.toNat_add]; simp; omega

/-- A byte of memory after a word write. -/
theorem putWord_readByte (c : Nat) : (s.putWord a v).mem.readByte c =
    if c = (a + 1#16).toNat then lowByte v else if c = a.toNat then highByte v else s.mem.readByte c := by
  simp only [State.putWord, State.putByte_mem, Memory.readByte_writeByte]

@[simp] theorem putWord_byteAt_high : (s.putWord a v).byteAt a = highByte v := by
  rw [State.byteAt, putWord_readByte, if_neg (succ_toNat_ne a).symm, if_pos rfl]

@[simp] theorem putWord_byteAt_low : (s.putWord a v).byteAt (a + 1#16) = lowByte v := by
  rw [State.byteAt, putWord_readByte, if_pos rfl]

theorem putWord_byteAt_ne {c : Word} (h : c ≠ a) (h' : c ≠ a + 1#16) : (s.putWord a v).byteAt c = s.byteAt c := by
  rw [State.byteAt, putWord_readByte, if_neg (by rwa [BitVec.toNat_inj]), if_neg (by rwa [BitVec.toNat_inj])]; rfl

/-- The bytes of a word, joined again. -/
@[simp] theorem highByte_append_lowByte (v : Word) : (highByte v ++ lowByte v : Word) = v := by
  apply BitVec.eq_of_toNat_eq
  rw [toNat_append_eq, highByte, lowByte, toNat_field, toNat_field]
  have := v.isLt
  omega

/-- A word read where it was written. -/
@[simp] theorem putWord_wordAt_same : (s.putWord a v).wordAt a = v := by simp [State.wordAt]

/-! ### The canonical form -/

theorem putByte_wf (h : s.mem.wf = true) (b : Byte) : (s.putByte a b).mem.wf = true :=
  Memory.wf_writeByte h a.isLt b

theorem putWord_wf (h : s.mem.wf = true) : (s.putWord a v).mem.wf = true := putByte_wf (putByte_wf h _) _

theorem hostLoad_wf (h : s.mem.wf = true) {image : List Byte} (hl : image.length ≤ Memory.size) :
    (s.hostLoad image).mem.wf = true :=
  Memory.wf_writeBytes h image 0 (by omega)

theorem reset_mem_wf : State.reset.mem.wf = true := rfl

/-! ### Fetch, execute and the cycle -/

theorem fetch_of_halted (h : s.halted = true) : fetch s = .ok s := by simp [fetch, h]

theorem fetch_inRange (h : s.halted = false) (hr : s.wordInRange (s.reg .pc)) : fetch s = .ok s.fetched := by
  simp [fetch, h, readWord_inRange hr, State.fetched]

theorem fetch_outOfRange (h : s.halted = false) (hr : ¬s.wordInRange (s.reg .pc)) :
    fetch s = .error (.wordAtTop .fetch) := by
  simp [fetch, h, readWord_outOfRange hr]

/-- What a fetch can do. -/
theorem fetch_ok (h : fetch s = .ok t) :
    (s.halted = true ∧ t = s) ∨ (s.halted = false ∧ s.wordInRange (s.reg .pc) ∧ t = s.fetched) := by
  cases hh : s.halted with
  | true => rw [fetch_of_halted hh] at h; cases h; exact .inl ⟨rfl, rfl⟩
  | false =>
    by_cases hr : s.wordInRange (s.reg .pc)
    · rw [fetch_inRange hh hr] at h; cases h; exact .inr ⟨rfl, hr, rfl⟩
    · rw [fetch_outOfRange hh hr] at h; cases h

@[simp] theorem fetched_halted : s.fetched.halted = s.halted := rfl
@[simp] theorem fetched_errored : s.fetched.errored = s.errored := rfl
@[simp] theorem fetched_mem : s.fetched.mem = s.mem := rfl
@[simp] theorem fetched_params : s.fetched.params = s.params := rfl
@[simp] theorem fetched_phase : s.fetched.phase = s.phase := rfl
@[simp] theorem fetched_draws : s.fetched.draws = s.draws := rfl
@[simp] theorem fetched_ir : s.fetched.reg .ir = s.wordAt (s.reg .pc) := by simp [State.fetched]
@[simp] theorem fetched_pc : s.fetched.reg .pc = s.reg .pc + 2#16 := by simp [State.fetched]

/-- What a step can do: stay where it is halted, or run the fetched word on the fetched state. -/
theorem step_next (h : step s = .next t) : s.phase = .ready ∧
    ((s.halted = true ∧ t = s) ∨
      (s.halted = false ∧ s.wordInRange (s.reg .pc) ∧ exec (decode (s.wordAt (s.reg .pc))) s.fetched = .next t)) := by
  unfold step stepFrom at h
  cases hp : s.phase with
  | powerUp => rw [hp] at h; cases h
  | fetched => rw [hp] at h; cases h
  | ready =>
    rw [hp] at h
    refine ⟨rfl, ?_⟩
    cases hh : s.halted with
    | true => simp only [cycle, hh, if_true] at h; cases h; exact .inl ⟨rfl, rfl⟩
    | false =>
      simp only [cycle, hh, Bool.false_eq_true, if_false] at h
      obtain ⟨u, hu, he⟩ := orFault_next h
      rcases fetch_ok hu with ⟨ht, -⟩ | ⟨-, hr, rfl⟩
      · rw [hh] at ht; cases ht
      · refine .inr ⟨rfl, hr, ?_⟩
        simpa only [execute, fetched_halted, hh, Bool.false_eq_true, if_false, fetched_ir] using he

/-! ### The shared meanings -/

section Meanings
variable {regA regB : RegField} {t12 : BitVec 12} {op : Word → Word → Word}

/-- A write through a field changes no register outside `destReg`. -/
theorem setFieldReg_kept (f : RegField) (v : Word) : RegsKeptBut s (s.setFieldReg f v) (destReg s.params f) := by
  intro q hq
  rcases s.setFieldReg_cases v f with ⟨-, e⟩ | ⟨h, e⟩
  · rw [e]
  · rw [destReg, if_neg h, List.mem_singleton] at hq
    rw [e, State.setReg_reg, if_neg hq]

/-- Where execute cannot write IR, IR is no instruction's destination. -/
theorem ir_not_mem_destRegs {p : Config.Params} (h : irOutOfReach p) (i : Instr) : Reg.ir ∉ destRegs p i := by
  have field : ∀ f, Reg.ir ∉ destReg p f := fun f => by
    unfold destReg
    split
    · exact List.not_mem_nil
    · rename_i hn
      exact fun hm => h.elim (fun hf => hf f (List.mem_singleton.1 hm).symm) fun hk =>
        hn ⟨(List.mem_singleton.1 hm).symm, hk⟩
  cases i <;> first | exact field _ | simp [destRegs]

theorem loadFrom_next (h : loadFrom s regA a = .next t) :
    s.wordInRange a ∧ t = s.setFieldReg regA (s.wordAt a) := by
  obtain ⟨w, hw, ht⟩ := orFault_next h
  obtain ⟨hr, rfl⟩ := readWord_ok hw
  cases ht; exact ⟨hr, rfl⟩

theorem storeTo_next (h : storeTo s regA a = .next t) : s.wordInRange a ∧ t = s.putWord a (s.fieldReg regA) := by
  obtain ⟨u, hu, ht⟩ := orFault_next h
  obtain ⟨hr, rfl⟩ := writeWord_ok hu
  cases ht; exact ⟨hr, rfl⟩

theorem arithRegister_next (h : arithRegister op regA regB s = .next t) :
    (s.params.legacyRegB = .intended ∧ t = s.setReg .ac (op (s.fieldReg regA) (s.fieldReg regB))) ∨
      (s.params.legacyRegB = .unknown ∧ t = s.afterDraw.setReg .ac s.draw) := by
  unfold arithRegister at h
  cases hl : s.params.legacyRegB <;> rw [hl] at h <;> cases h
  · exact .inl ⟨rfl, rfl⟩
  · exact .inr ⟨rfl, rfl⟩

theorem loadFrom_inRange (h : s.wordInRange a) :
    loadFrom s regA a = .next (s.setFieldReg regA (s.wordAt a)) := by
  simp only [loadFrom, readWord_inRange h]; rfl

theorem loadFrom_outOfRange (h : ¬s.wordInRange a) : loadFrom s regA a = .fault (.wordAtTop .load) := by
  simp only [loadFrom, readWord_outOfRange h]; rfl

theorem storeTo_inRange (h : s.wordInRange a) : storeTo s regA a = .next (s.putWord a (s.fieldReg regA)) := by
  simp only [storeTo, writeWord_inRange h]; rfl

theorem storeTo_outOfRange (h : ¬s.wordInRange a) : storeTo s regA a = .fault (.wordAtTop .store) := by
  simp only [storeTo, writeWord_outOfRange h]; rfl

/-- An 8-bit absolute address is never 0xFFFF. -/
theorem zextAddr8_inRange (s : State) (v : BitVec 8) : s.wordInRange (zextAddr8 v) := by
  refine .inr fun h => ?_
  have h1 : (zextAddr8 v).toNat = 0xFFFF := by rw [h]; rfl
  have h2 := v.isLt
  simp only [zextAddr8, BitVec.truncate_eq_setWidth, BitVec.toNat_setWidth] at h1
  omega

theorem execRet_inRange (h : s.wordInRange (s.reg .bp)) (h' : s.wordInRange (s.reg .bp - 2#16)) :
    execRet s = .next ((((s.setReg .sp (s.reg .bp)).setReg .bp (s.wordAt (s.reg .bp))).setReg .sp
      (s.reg .bp - 2#16)).setReg .pc (s.wordAt (s.reg .bp - 2#16))) := by
  unfold execRet
  simp only [State.setReg_reg, if_true]
  rw [readWord_inRange (s := s.setReg .sp (s.reg .bp)) h]
  simp only [orFault_ok, reduceCtorEq, if_false]
  rw [readWord_inRange (by exact h')]
  rfl

theorem execRet_outOfRange (h : ¬(s.wordInRange (s.reg .bp) ∧ s.wordInRange (s.reg .bp - 2#16))) :
    execRet s = .fault (.wordAtTop .pop) := by
  unfold execRet
  simp only [State.setReg_reg, if_true]
  by_cases h1 : s.wordInRange (s.reg .bp)
  · rw [readWord_inRange (s := s.setReg .sp (s.reg .bp)) h1]
    simp only [orFault_ok, reduceCtorEq, if_false]
    rw [readWord_outOfRange (by intro h2; exact h ⟨h1, h2⟩)]
    rfl
  · rw [readWord_outOfRange (s := s.setReg .sp (s.reg .bp)) h1]; rfl

theorem execCall_inRange (h : s.wordInRange (s.reg .sp)) (h' : s.wordInRange (s.reg .sp + 2#16)) :
    execCall t12 s = .next ((((((s.putWord (s.reg .sp) (s.reg .pc)).setReg .sp (s.reg .sp + 2#16)).setReg .pc
      (t12.zeroExtend 16)).putWord (s.reg .sp + 2#16) (s.reg .bp)).setReg .bp (s.reg .sp + 2#16)).setReg .sp
      (s.reg .sp + 2#16 + 2#16)) := by
  unfold execCall
  rw [writeWord_inRange h]
  simp only [orFault_ok, State.jumpTo_eq, State.setReg_reg, putWord_reg, if_true, reduceCtorEq, if_false]
  rw [writeWord_inRange (by exact h')]
  rfl

theorem execCall_outOfRange (h : ¬(s.wordInRange (s.reg .sp) ∧ s.wordInRange (s.reg .sp + 2#16))) :
    execCall t12 s = .fault (.wordAtTop .push) := by
  unfold execCall
  by_cases h1 : s.wordInRange (s.reg .sp)
  · rw [writeWord_inRange h1]
    simp only [orFault_ok, State.jumpTo_eq, State.setReg_reg, putWord_reg, if_true, reduceCtorEq, if_false]
    rw [writeWord_outOfRange (by intro h2; exact h ⟨h1, h2⟩)]
    rfl
  · rw [writeWord_outOfRange h1]; rfl

/-- What a return can do: both words popped from the frame at the old BP. -/
theorem execRet_next (h : execRet s = .next t) :
    s.wordInRange (s.reg .bp) ∧ s.wordInRange (s.reg .bp - 2#16) ∧
      t = (((s.setReg .sp (s.reg .bp)).setReg .bp (s.wordAt (s.reg .bp))).setReg .sp (s.reg .bp - 2#16)).setReg .pc
        (s.wordAt (s.reg .bp - 2#16)) := by
  obtain ⟨w, hw, h⟩ := orFault_next h
  obtain ⟨hr, rfl⟩ := readWord_ok hw
  obtain ⟨w', hw', h⟩ := orFault_next h
  obtain ⟨hr', rfl⟩ := readWord_ok hw'
  cases h
  simp only [State.setReg_reg, if_true, reduceCtorEq, if_false] at hr hr' ⊢
  exact ⟨hr, hr', rfl⟩

/-- What a call can do: the return address and the old BP pushed, the frame set up, the jump taken. -/
theorem execCall_next (h : execCall t12 s = .next t) :
    s.wordInRange (s.reg .sp) ∧ s.wordInRange (s.reg .sp + 2#16) ∧
      t = ((((((s.putWord (s.reg .sp) (s.reg .pc)).setReg .sp (s.reg .sp + 2#16)).setReg .pc (t12.zeroExtend 16)).putWord
        (s.reg .sp + 2#16) (s.reg .bp)).setReg .bp (s.reg .sp + 2#16)).setReg .sp (s.reg .sp + 2#16 + 2#16)) := by
  obtain ⟨u, hu, h⟩ := orFault_next h
  obtain ⟨hr, rfl⟩ := writeWord_ok hu
  obtain ⟨u', hu', h⟩ := orFault_next h
  obtain ⟨hr', rfl⟩ := writeWord_ok hu'
  cases h
  simp only [State.jumpTo_eq, State.setReg_reg, putWord_reg, if_true, reduceCtorEq, if_false] at hr' ⊢
  exact ⟨hr, hr', trivial⟩

end Meanings

end Sys2Proof.Machine
end

