-- ==== Sys2Proof/Laws/PerInstr.lean ====
section
/-! SUPPORT. Facts about every instruction, one lemma per constructor of Instr: the word the encoder writes lies in the
instruction's own row of the opcode map (spec 30_encoding.md R95). -/

namespace Sys2Proof.Laws.EncodesInRow

/-- The instruction's word selects a row of the opcode map that has the instruction's mnemonic. -/
def Statement (i : Instr) : Prop := ∃ r ∈ opcodeMap, r.mnemonic = i.mnemonic ∧ r.selects (encode i) = true

theorem halt : Statement .halt := by
  refine ⟨⟨"halt", 0x0000#16, 0xF800#16, 0xF800#16⟩, by simp [opcodeMap], rfl, ?_⟩
  rw [selects_F800, encode, encodeF_toNat]; simp

theorem nop : Statement .nop := by
  refine ⟨⟨"nop", 0x0800#16, 0xF800#16, 0xF800#16⟩, by simp [opcodeMap], rfl, ?_⟩
  rw [selects_F800, encode, encodeF_toNat]; simp

theorem ret : Statement .ret := by
  refine ⟨⟨"return", 0x1000#16, 0xF800#16, 0xF800#16⟩, by simp [opcodeMap], rfl, ?_⟩
  rw [selects_F800, encode, encodeF_toNat]; simp

theorem error : Statement .error := by
  refine ⟨⟨"error", 0x1800#16, 0xF800#16, 0xF800#16⟩, by simp [opcodeMap], rfl, ?_⟩
  rw [selects_F800, encode, encodeF_toNat]; simp

theorem illegalFlow100 : Statement .illegalFlow100 := by
  refine ⟨⟨"illegal-flow-100", 0x2000#16, 0xF800#16, 0xF800#16⟩, by simp [opcodeMap], rfl, ?_⟩
  rw [selects_F800, encode, encodeF_toNat]; simp

theorem illegalFlow101 : Statement .illegalFlow101 := by
  refine ⟨⟨"illegal-flow-101", 0x2800#16, 0xF800#16, 0xF800#16⟩, by simp [opcodeMap], rfl, ?_⟩
  rw [selects_F800, encode, encodeF_toNat]; simp

theorem illegalFlow110 : Statement .illegalFlow110 := by
  refine ⟨⟨"illegal-flow-110", 0x3000#16, 0xF800#16, 0xF800#16⟩, by simp [opcodeMap], rfl, ?_⟩
  rw [selects_F800, encode, encodeF_toNat]; simp

theorem illegalFlow111 : Statement .illegalFlow111 := by
  refine ⟨⟨"illegal-flow-111", 0x3800#16, 0xF800#16, 0xF800#16⟩, by simp [opcodeMap], rfl, ?_⟩
  rw [selects_F800, encode, encodeF_toNat]; simp

theorem loadImmediate (regA : RegField) (imm8 : BitVec 8) : Statement (.loadImmediate regA imm8) := by
  refine ⟨⟨"load-immediate", 0x4000#16, 0xF800#16, 0xFFFF#16⟩, by simp [opcodeMap], rfl, ?_⟩
  have := regA.isLt; have := imm8.isLt
  rw [selects_F800, encode, encodeTI_toNat]; simp; omega

theorem loadAbsolute (regA : RegField) (addr8 : BitVec 8) : Statement (.loadAbsolute regA addr8) := by
  refine ⟨⟨"load-absolute", 0x4800#16, 0xF800#16, 0xFFFF#16⟩, by simp [opcodeMap], rfl, ?_⟩
  have := regA.isLt; have := addr8.isLt
  rw [selects_F800, encode, encodeTI_toNat]; simp; omega

theorem loadIndirect (regA regB : RegField) : Statement (.loadIndirect regA regB) := by
  refine ⟨⟨"load-indirect", 0x5000#16, 0xF800#16, 0xFFE0#16⟩, by simp [opcodeMap], rfl, ?_⟩
  have := regA.isLt; have := regB.isLt
  rw [selects_F800, encode, encodeTR_toNat]; simp; omega

theorem loadIndexed (regA regB : RegField) (off5 : BitVec 5) : Statement (.loadIndexed regA regB off5) := by
  refine ⟨⟨"load-indexed", 0x5800#16, 0xF800#16, 0xFFFF#16⟩, by simp [opcodeMap], rfl, ?_⟩
  have := regA.isLt; have := regB.isLt; have := off5.isLt
  rw [selects_F800, encode, encodeTR_toNat]; simp; omega

theorem storeAbsolute (regA : RegField) (addr8 : BitVec 8) : Statement (.storeAbsolute regA addr8) := by
  refine ⟨⟨"store-absolute", 0x6000#16, 0xF800#16, 0xFFFF#16⟩, by simp [opcodeMap], rfl, ?_⟩
  have := regA.isLt; have := addr8.isLt
  rw [selects_F800, encode, encodeTI_toNat]; simp; omega

theorem storeIndirect (regA regB : RegField) : Statement (.storeIndirect regA regB) := by
  refine ⟨⟨"store-indirect", 0x6800#16, 0xF800#16, 0xFFE0#16⟩, by simp [opcodeMap], rfl, ?_⟩
  have := regA.isLt; have := regB.isLt
  rw [selects_F800, encode, encodeTR_toNat]; simp; omega

theorem storeIndexed (regA regB : RegField) (off5 : BitVec 5) : Statement (.storeIndexed regA regB off5) := by
  refine ⟨⟨"store-indexed", 0x7000#16, 0xF800#16, 0xFFFF#16⟩, by simp [opcodeMap], rfl, ?_⟩
  have := regA.isLt; have := regB.isLt; have := off5.isLt
  rw [selects_F800, encode, encodeTR_toNat]; simp; omega

theorem illegalTransfer111 : Statement .illegalTransfer111 := by
  refine ⟨⟨"illegal-transfer-111", 0x7800#16, 0xF800#16, 0xF800#16⟩, by simp [opcodeMap], rfl, ?_⟩
  rw [selects_F800, encode, encodeTI_toNat]; simp

theorem negate (regA : RegField) : Statement (.negate regA) := by
  refine ⟨⟨"negate", 0x8000#16, 0xF800#16, 0xFF00#16⟩, by simp [opcodeMap], rfl, ?_⟩
  have := regA.isLt
  rw [selects_F800, encode, encodeMR_toNat]; simp; omega

theorem addRegister (regA regB : RegField) : Statement (.addRegister regA regB) := by
  refine ⟨⟨"add-register", 0x8800#16, 0xF800#16, 0xFFE0#16⟩, by simp [opcodeMap], rfl, ?_⟩
  have := regA.isLt; have := regB.isLt
  rw [selects_F800, encode, encodeMR_toNat]; simp; omega

theorem addImmediate (regA : RegField) (imm8 : BitVec 8) : Statement (.addImmediate regA imm8) := by
  refine ⟨⟨"add-immediate", 0x9000#16, 0xF800#16, 0xFFFF#16⟩, by simp [opcodeMap], rfl, ?_⟩
  have := regA.isLt; have := imm8.isLt
  rw [selects_F800, encode, encodeMI_toNat]; simp; omega

theorem subtractRegister (regA regB : RegField) : Statement (.subtractRegister regA regB) := by
  refine ⟨⟨"subtract-register", 0x9800#16, 0xF800#16, 0xFFE0#16⟩, by simp [opcodeMap], rfl, ?_⟩
  have := regA.isLt; have := regB.isLt
  rw [selects_F800, encode, encodeMR_toNat]; simp; omega

theorem subtractImmediate (regA : RegField) (imm8 : BitVec 8) : Statement (.subtractImmediate regA imm8) := by
  refine ⟨⟨"subtract-immediate", 0xA000#16, 0xF800#16, 0xFFFF#16⟩, by simp [opcodeMap], rfl, ?_⟩
  have := regA.isLt; have := imm8.isLt
  rw [selects_F800, encode, encodeMI_toNat]; simp; omega

theorem illegalManipulate101 : Statement .illegalManipulate101 := by
  refine ⟨⟨"illegal-manipulate-101", 0xA800#16, 0xF800#16, 0xF800#16⟩, by simp [opcodeMap], rfl, ?_⟩
  rw [selects_F800, encode, encodeMR_toNat]; simp

theorem illegalManipulate110 : Statement .illegalManipulate110 := by
  refine ⟨⟨"illegal-manipulate-110", 0xB000#16, 0xF800#16, 0xF800#16⟩, by simp [opcodeMap], rfl, ?_⟩
  rw [selects_F800, encode, encodeMR_toNat]; simp

theorem move (regA regB : RegField) : Statement (.move regA regB) := by
  refine ⟨⟨"move", 0xB800#16, 0xF800#16, 0xFFE0#16⟩, by simp [opcodeMap], rfl, ?_⟩
  have := regA.isLt; have := regB.isLt
  rw [selects_F800, encode, encodeMR_toNat]; simp; omega

theorem jump (t12 : BitVec 12) : Statement (.jump t12) := by
  refine ⟨⟨"jump", 0xC000#16, 0xF000#16, 0xFFFF#16⟩, by simp [opcodeMap], rfl, ?_⟩
  have := t12.isLt
  rw [selects_F000, encode, encodeJ_toNat]; simp; omega

theorem jumpIfZero (t12 : BitVec 12) : Statement (.jumpIfZero t12) := by
  refine ⟨⟨"jump-if-zero", 0xD000#16, 0xF000#16, 0xFFFF#16⟩, by simp [opcodeMap], rfl, ?_⟩
  have := t12.isLt
  rw [selects_F000, encode, encodeJ_toNat]; simp; omega

theorem jumpIfNegative (t12 : BitVec 12) : Statement (.jumpIfNegative t12) := by
  refine ⟨⟨"jump-if-negative", 0xE000#16, 0xF000#16, 0xFFFF#16⟩, by simp [opcodeMap], rfl, ?_⟩
  have := t12.isLt
  rw [selects_F000, encode, encodeJ_toNat]; simp; omega

theorem call (t12 : BitVec 12) : Statement (.call t12) := by
  refine ⟨⟨"call", 0xF000#16, 0xF000#16, 0xFFFF#16⟩, by simp [opcodeMap], rfl, ?_⟩
  have := t12.isLt
  rw [selects_F000, encode, encodeJ_toNat]; simp; omega

end Sys2Proof.Laws.EncodesInRow
end

