-- ==== Sys2Proof/Tests/Slice0.lean ====
section
/-! SUPPORT. The model's own tests: the well-formedness smoke test, words decoded by hand from 30_encoding.md, single steps
with results from 95_test_vectors.md (V1 to V81), and for each statement with hypotheses a state that meets them. -/

namespace Sys2Proof.Tests

open Sys2Proof.Machine

/-! ### Helpers -/

/-- The reset state with the word `v` at address `a`. -/
def wordPut (s : State) (a v : Word) : State := (s.putByte a (highByte v)).putByte (a + 1#16) (lowByte v)

/-- The reset state of a machine with other parameters. -/
def resetWith (e : Config.EdgeWord) (l : Config.LegacyRegB) : State :=
  { State.reset with params := { Config.defaultParams with edgeWord := e, legacyRegB := l } }

/-- Reset, with `EDGE_WORD = fault`. -/
def faulty : State := resetWith .fault .intended

/-- A `REG_MAP` whose field values 0 and 7 name IR, on a machine that keeps IR (log 15). -/
def irMap : Config.Params := { Config.defaultParams with regMap := #v[.ir, .r1, .r2, .r3, .ac, .sp, .bp, .ir] }

/-- The same map on a machine that writes IR (log 15). -/
def irMapWritten : Config.Params := { irMap with irByField := .written }

/-- The next state, if there is one. -/
def nextOf : Result → Option State
  | .next t => some t
  | .fault _ => none
  | .refused _ => none

/-- The fault, if there is one. -/
def faultOf : Result → Option Fault
  | .fault f => some f
  | .next _ => none
  | .refused _ => none

/-- One step on the word placed at PC, as the host places it. -/
def runWord (s : State) (w : Nat) : Option State := nextOf (step (s.withFetchWord 16 w))

/-! ### Well-formedness: each check accepts its boundary and refuses an ill-formed term -/

theorem test_wf_illegal_rows_refused :
    [Instr.illegalFlow100, .illegalFlow101, .illegalFlow110, .illegalFlow111, .illegalTransfer111,
      .illegalManipulate101, .illegalManipulate110].all (fun i => !i.isDefined) = true := by decide

theorem test_wf_register_ir_refused :
    (Asm.move .ir .r0).wellFormed Config.defaultParams = false ∧
      (Asm.move .pc .r0).wellFormed Config.defaultParams = true := by decide

/-- IR has no name in R99's list, even where `REG_MAP` selects it; nor has a register no field value selects a field. -/
theorem test_wf_register_outside_R99 :
    (Asm.negate .ir).wellFormed irMap = false ∧ (Asm.negate .pc).wellFormed irMap = false ∧
      (Asm.negate .bp).wellFormed irMap = true := by decide

theorem test_wf_immediate_range :
    (Asm.addImmediate .r1 256).wellFormed Config.defaultParams = false ∧
      (Asm.addImmediate .r1 (-129)).wellFormed Config.defaultParams = false ∧
      (Asm.addImmediate .r1 255).wellFormed Config.defaultParams = true ∧
      (Asm.addImmediate .r1 (-128)).wellFormed Config.defaultParams = true := by decide

theorem test_wf_address_range :
    (Asm.loadAbsolute .r1 256).wellFormed Config.defaultParams = false ∧
      (Asm.loadAbsolute .r1 255).wellFormed Config.defaultParams = true := by decide

theorem test_wf_offset_range :
    (Asm.loadIndexed .r1 .r2 16).wellFormed Config.defaultParams = false ∧
      (Asm.loadIndexed .r1 .r2 (-17)).wellFormed Config.defaultParams = false ∧
      (Asm.loadIndexed .r1 .r2 15).wellFormed Config.defaultParams = true ∧
      (Asm.loadIndexed .r1 .r2 (-16)).wellFormed Config.defaultParams = true := by decide

theorem test_wf_target_range :
    (Asm.call 4096).wellFormed Config.defaultParams = false ∧
      (Asm.call 4095).wellFormed Config.defaultParams = true := by decide

/-! ### Decode: every row's word written out bit by bit from R95 and R82 to R87 -/

theorem test_decode_flow :
    decode 0b00_000_00000000000#16 = .halt ∧ decode 0b00_001_00000000000#16 = .nop ∧
      decode 0b00_010_00000000000#16 = .ret ∧ decode 0b00_011_00000000000#16 = .error ∧
      decode 0b00_100_00000000000#16 = .illegalFlow100 ∧ decode 0b00_101_11111111111#16 = .illegalFlow101 ∧
      decode 0b00_110_00000000001#16 = .illegalFlow110 ∧ decode 0b00_111_00000000000#16 = .illegalFlow111 := by decide

theorem test_decode_transfer_loads :
    decode 0b01_000_001_00000101#16 = .loadImmediate 1#3 0x05#8 ∧
      decode 0b01_001_001_00100000#16 = .loadAbsolute 1#3 0x20#8 ∧
      decode 0b01_010_011_010_00000#16 = .loadIndirect 3#3 2#3 ∧
      decode 0b01_011_000_010_10000#16 = .loadIndexed 0#3 2#3 0x10#5 := by decide

theorem test_decode_transfer_stores :
    decode 0b01_100_100_00110010#16 = .storeAbsolute 4#3 0x32#8 ∧
      decode 0b01_101_000_010_11111#16 = .storeIndirect 0#3 2#3 ∧
      decode 0b01_110_001_010_11110#16 = .storeIndexed 1#3 2#3 0x1E#5 ∧
      decode 0b01_111_111_111_11111#16 = .illegalTransfer111 := by decide

theorem test_decode_manipulate :
    decode 0b10_000_011_00000000#16 = .negate 3#3 ∧ decode 0b10_001_001_011_00100#16 = .addRegister 1#3 3#3 ∧
      decode 0b10_010_001_00000001#16 = .addImmediate 1#3 0x01#8 ∧
      decode 0b10_011_000_001_00000#16 = .subtractRegister 0#3 1#3 ∧
      decode 0b10_100_000_11111111#16 = .subtractImmediate 0#3 0xFF#8 ∧
      decode 0b10_101_000_000_00000#16 = .illegalManipulate101 ∧
      decode 0b10_110_111_111_11111#16 = .illegalManipulate110 ∧
      decode 0b10_111_100_000_00000#16 = .move 4#3 0#3 := by decide

theorem test_decode_jump :
    decode 0b11_00_000000000010#16 = .jump 0x002#12 ∧ decode 0b11_01_000000001010#16 = .jumpIfZero 0x00A#12 ∧
      decode 0b11_10_000000001100#16 = .jumpIfNegative 0x00C#12 ∧ decode 0b11_11_000000010000#16 = .call 0x010#12 := by
  decide

theorem test_decodeTableWord :
    decodeTableWord 16 0x715E = some (.storeIndexed 1#3 2#3 0x1E#5) ∧ decodeTableWord 17 0 = none := by decide

/-- The first words of program P2, assembled (95_test_vectors.md). -/
theorem test_assemble_P2 :
    (assemble Config.defaultParams (.storeIndexed .r1 .r2 (-2))).map encode = some 0x715E#16 ∧
      (assemble Config.defaultParams (.storeAbsolute .ac 0x32)).map encode = some 0x6432#16 := by decide

theorem test_text : (Asm.storeIndexed .r1 .r2 (-2)).text = "store-indexed R1, [R2 - 2]" ∧ Asm.halt.text = "halt" := by
  decide

/-- Program P1's text and the words 95_test_vectors.md gives for it. -/
theorem test_read_P1 :
    (assembleLines Config.defaultParams ["load-immediate R0, 3", "loop: subtract-immediate R0, 1", "move AC, R0",
      "jump-if-zero done", "jump loop", "done: halt"]).map (List.map encode) =
      some [0x4003#16, 0xA001#16, 0xBC00#16, 0xD00A#16, 0xC002#16, 0x0000#16] := by decide

/-- Short names, hex numbers, memory operands; an operand out of range. -/
theorem test_read_operands :
    (assembleLines Config.defaultParams ["stx R1, [R2 - 2]", "ldn R3, [R2]", "sta AC, 0x32"]).map (List.map encode) =
        some [0x715E#16, 0x5340#16, 0x6432#16] ∧
      assembleLines Config.defaultParams ["ldx R0, [R2 + 16]"] = none := by decide

/-! ### Single steps, by test vector -/

theorem test_V2_nop_wraps_pc :
    (runWord (State.reset.setReg .pc 0xFFFE#16) 0x0800).map (fun t => (t.reg .pc, t.reg .ir)) =
      some (0x0000#16, 0x0800#16) := by decide

theorem test_V3_fetch_at_top :
    (runWord (State.reset.setReg .pc 0xFFFF#16) 0x0800).map (fun t => (t.reg .pc, t.reg .ir)) =
        some (0x0001#16, 0x0800#16) ∧
      faultOf (step ((faulty.setReg .pc 0xFFFF#16).withFetchWord 16 0x0800)) = some (.wordAtTop .fetch) := by decide

theorem test_V5_halted_stays :
    nextOf (step (State.reset.setHalted.setReg .pc 6#16)) = some (State.reset.setHalted.setReg .pc 6#16) := by decide

theorem test_V10_halt :
    (runWord (State.reset.setReg .pc 0x000A#16) 0x0000).map (fun t => (t.reg .pc, t.reg .ir, t.halted, t.errored)) =
      some (0x000C#16, 0x0000#16, true, false) := by decide

theorem test_V13_return :
    (runWord (wordPut (wordPut (State.reset.setReg .bp 0x0102#16) 0x0102#16 0x00FE#16) 0x0100#16 0x0004#16) 0x1000).map
      (fun t => (t.reg .sp, t.reg .bp, t.reg .pc)) = some (0x0100#16, 0x00FE#16, 0x0004#16) := by decide

theorem test_V15_return_wraps :
    (runWord (wordPut (State.reset.setReg .bp 0x0000#16) 0xFFFE#16 0x0040#16) 0x1000).map
      (fun t => (t.reg .sp, t.reg .bp, t.reg .pc)) = some (0xFFFE#16, 0x1000#16, 0x0040#16) := by decide

theorem test_V16_error :
    (runWord State.reset 0x1800).map (fun t => (t.reg .pc, t.errored, t.halted)) = some (0x0002#16, true, false) := by
  decide

theorem test_V17_V39_V62_illegal_words :
    [0x2000, 0x2FFF, 0x3000, 0x3800, 0x7800, 0x7FFF, 0xA800, 0xB000, 0xB7FF].all (fun w =>
      (runWord State.reset w).map (fun t => (t.reg .pc, t.errored, t.halted, t.reg .ac)) =
        some (0x0002#16, true, false, 0x0000#16)) = true := by decide

theorem test_V22_V24_load_immediate :
    (runWord State.reset 0x4180).map (fun t => t.reg .r1) = some 0xFF80#16 ∧
      (runWord State.reset 0x4710).map (fun t => t.reg .pc) = some 0x0010#16 := by decide

/-- Log 15: where `REG_MAP` names IR as the destination of load-immediate or move, IR keeps the fetched word (R22, R119) or
takes the value (R11), by the machine's `irByField`. -/
theorem test_ir_by_field :
    (runWord { State.reset with params := irMap } 0x4005).map (fun t => t.reg .ir) = some 0x4005#16 ∧
      (runWord { State.reset with params := irMap } 0xB9E0).map (fun t => t.reg .ir) = some 0xB9E0#16 ∧
      (runWord { State.reset with params := irMapWritten } 0x4005).map (fun t => t.reg .ir) = some 0x0005#16 ∧
      (runWord { State.reset with params := irMapWritten } 0xB9E0).map (fun t => t.reg .ir) = some 0x0000#16 := by decide

/-- Labels (log 16): the first of two definitions counts, and a name spelled like a number is read as the number. -/
theorem test_read_labels :
    (assembleLines Config.defaultParams ["x: nop", "x: 8: nop", "jump x"]) = none ∧
      (assembleLines Config.defaultParams ["x: nop", "x: nop", "8: jump 8", "jump x"]).map (List.map encode) =
        some [0x0800#16, 0x0800#16, 0xC008#16, 0xC000#16] := by decide

theorem test_V26_load_absolute :
    (runWord (wordPut State.reset 0x00FF#16 0xABCD#16) 0x48FF).map (fun t => t.reg .r0) = some 0xABCD#16 := by decide

theorem test_V28_load_indirect_same_register :
    (runWord (wordPut (State.reset.setReg .r2 0x0030#16) 0x0030#16 0x5555#16) 0x5240).map (fun t => t.reg .r2) =
      some 0x5555#16 := by decide

theorem test_V30_V32_load_indexed :
    (runWord (wordPut (State.reset.setReg .r2 0x0030#16) 0x003F#16 0x0102#16) 0x584F).map (fun t => t.reg .r0) =
        some 0x0102#16 ∧
      (runWord (wordPut (State.reset.setReg .r2 0x0005#16) 0xFFF5#16 0x4242#16) 0x5850).map (fun t => t.reg .r0) =
        some 0x4242#16 := by decide

theorem test_V34_V38_store_absolute :
    (runWord (State.reset.setReg .ac 0x9235#16) 0x6432).map (fun t => (t.byteAt 0x32#16, t.byteAt 0x33#16)) =
        some (0x92#8, 0x35#8) ∧
      (runWord (State.reset.setReg .pc 0x0006#16) 0x6750).map (fun t => t.wordAt 0x0050#16) = some 0x0008#16 := by decide

theorem test_V36_store_indirect_at_top :
    (runWord ((State.reset.setReg .r0 0xABCD#16).setReg .r2 0xFFFF#16) 0x6840).map
        (fun t => (t.byteAt 0xFFFF#16, t.byteAt 0x0000#16)) = some (0xAB#8, 0xCD#8) ∧
      faultOf (step ((faulty.setReg .r2 0xFFFF#16).withFetchWord 16 0x6840)) = some (.wordAtTop .store) := by decide

theorem test_V37_store_indexed :
    (runWord ((State.reset.setReg .r1 0x1234#16).setReg .r2 0x0030#16) 0x715E).map
      (fun t => (t.byteAt 0x2E#16, t.byteAt 0x2F#16)) = some (0x12#8, 0x34#8) := by decide

theorem test_V40_V42_negate :
    (runWord (State.reset.setReg .r3 0x0005#16) 0x8300).map (fun t => (t.reg .ac, t.reg .r3)) =
        some (0xFFFB#16, 0x0005#16) ∧
      (runWord (State.reset.setReg .r0 0x8000#16) 0x8000).map (fun t => t.reg .ac) = some 0x8000#16 := by decide

theorem test_V44_V45_add_register :
    (runWord ((State.reset.setReg .r1 0x1234#16).setReg .r3 0x8001#16) 0x8960).map (fun t => t.reg .ac) =
        some 0x9235#16 ∧
      (runWord ((State.reset.setReg .r0 0xFFFF#16).setReg .r1 0x0001#16) 0x8820).map (fun t => t.reg .ac) =
        some 0x0000#16 := by decide

/-- V48: under `LEGACY_REGB = unknown` AC is the draw, whatever it is, and the draw is counted. -/
theorem test_V48_add_register_draw :
    (runWord (resetWith .wrap .unknown) 0x8820).map (fun t => (t.reg .ac, t.draws)) =
      some (Config.legacyDraw 0, 1) := rfl

theorem test_V51_add_immediate :
    (runWord State.reset 0x9180).map (fun t => t.reg .ac) = some 0xFF80#16 := by decide

theorem test_V52_V53_subtract_register :
    (runWord ((State.reset.setReg .r0 0x0003#16).setReg .r1 0x0005#16) 0x9820).map (fun t => t.reg .ac) =
        some 0xFFFE#16 ∧
      (runWord ((State.reset.setReg .r0 0x8000#16).setReg .r1 0x0001#16) 0x9820).map (fun t => t.reg .ac) =
        some 0x7FFF#16 := by decide

theorem test_V56_V58_subtract_immediate :
    (runWord State.reset 0xA0FF).map (fun t => t.reg .ac) = some 0x0001#16 ∧
      (runWord State.reset 0xA001).map (fun t => t.reg .ac) = some 0xFFFF#16 := by decide

theorem test_V59_V61_move :
    (runWord (State.reset.setReg .ac 0x0002#16) 0xBC00).map (fun t => (t.reg .r0, t.reg .ac)) =
        some (0x0002#16, 0x0002#16) ∧
      (runWord (State.reset.setReg .r2 0x0100#16) 0xBAE0).map (fun t => t.reg .pc) = some 0x0100#16 := by decide

theorem test_V71_jump : (runWord State.reset 0xCFFF).map (fun t => t.reg .pc) = some 0x0FFF#16 := by decide

theorem test_V72_V74_jump_if_zero :
    (runWord (State.reset.setReg .pc 6#16) 0xD00A).map (fun t => t.reg .pc) = some 0x000A#16 ∧
      (runWord ((State.reset.setReg .pc 6#16).setReg .ac 0x8000#16) 0xD00A).map (fun t => t.reg .pc) =
        some 0x0008#16 := by decide

theorem test_V76_V77_jump_if_negative :
    (runWord ((State.reset.setReg .pc 6#16).setReg .ac 0x8000#16) 0xE00C).map (fun t => t.reg .pc) = some 0x000C#16 ∧
      (runWord ((State.reset.setReg .pc 6#16).setReg .ac 0x7FFF#16) 0xE00C).map (fun t => t.reg .pc) =
        some 0x0008#16 := by decide

theorem test_V79_call :
    (runWord (State.reset.setReg .pc 2#16) 0xF010).map (fun t =>
      (t.wordAt 0x0100#16, t.wordAt 0x0102#16, t.reg .bp, t.reg .sp, t.reg .pc)) =
      some (0x0004#16, 0x00FE#16, 0x0102#16, 0x0104#16, 0x0010#16) := by decide

theorem test_V80_V81_call_at_top :
    (runWord ((State.reset.setReg .sp 0xFFFE#16).setReg .bp 0xFFFC#16) 0xF010).map (fun t =>
        (t.wordAt 0xFFFE#16, t.wordAt 0x0000#16, t.reg .bp, t.reg .sp)) =
        some (0x0002#16, 0xFFFC#16, 0x0000#16, 0x0002#16) ∧
      faultOf (step ((faulty.setReg .sp 0xFFFF#16).withFetchWord 16 0xF010)) = some (.wordAtTop .push) := by decide

/-! ### Witnesses: a state and operands that meet a statement's hypotheses, by clause at a boundary of its range -/

/-- EncodeOfDecodeKeepsUsedBits, EveryWordSelectsExactlyOneRow, and every `RowDecodes`: each row is selected by its own
match value, by that value with every masked-out bit set, and fits the row. -/
theorem witness_rows : opcodeMap.all (fun r =>
    r.selects r.bits && r.selects (r.bits ||| ~~~r.mask) && (r.bits &&& r.mask == r.bits)) = true := by decide

/-- UnusedBitsDoNotChangeTheInstruction: two different words of one row that agree on its used bits. -/
theorem witness_UnusedBits :
    (⟨"halt", 0x0000#16, 0xF800#16, 0xF800#16⟩ : OpcodeRow) ∈ opcodeMap ∧
      (⟨"halt", 0x0000#16, 0xF800#16, 0xF800#16⟩ : OpcodeRow).selects 0x0000#16 = true ∧
      0x0000#16 &&& 0xF800#16 = 0x07FF#16 &&& 0xF800#16 := by decide

/-- AssembledOperandsMeanTheLine, AssemblerAcceptsExactlyWellFormedLines: a line of every shape that assembles, its
numbers at a boundary of their range. -/
theorem witness_AssembledOperandsMeanTheLine :
    [Asm.halt, .nop, .ret, .error, .loadImmediate .r1 (-128), .loadAbsolute .r1 255, .loadIndirect .r1 .pc,
      .loadIndexed .r1 .r2 (-16), .storeAbsolute .ac 0, .storeIndirect .r0 .r2, .storeIndexed .r1 .r2 15, .negate .sp,
      .addRegister .bp .ac, .addImmediate .r1 255, .subtractRegister .r0 .r1, .subtractImmediate .r3 128, .move .r1 .r2,
      .jump 0, .jumpIfZero 4095, .jumpIfNegative 4095, .call 4095].all
      (fun l => (assemble Config.defaultParams l).isSome) = true := by decide

/-- WordReadIsBigEndian, WordWriteIsBigEndian: both ends of the addresses below 0xFFFF. -/
theorem witness_word_address : (0x0000#16 : Word) ≠ 0xFFFF#16 ∧ (0xFFFE#16 : Word) ≠ 0xFFFF#16 := by decide

/-- WordAccessAtTheTopAddress, and every statement that splits on the parameters: each value of each is some state's. -/
theorem witness_parameters :
    State.reset.params.edgeWord = .wrap ∧ faulty.params.edgeWord = .fault ∧
      State.reset.params.legacyRegB = .intended ∧ (resetWith .wrap .unknown).params.legacyRegB = .unknown := by decide

/-- WrittenWordReadsBack: writes that complete at 0xFFFF (wrap) and at 0xFFFE (fault), and the reads after them. -/
theorem witness_WrittenWordReadsBack :
    (∃ t, State.reset.writeWord .store 0xFFFF#16 0xBEEF#16 = .ok t ∧ ∃ w, t.readWord .load (0xFFFF#16 + 1#16) = .ok w) ∧
      (∃ t, faulty.writeWord .store 0xFFFE#16 0xBEEF#16 = .ok t) := ⟨⟨_, rfl, _, rfl⟩, ⟨_, rfl⟩⟩

/-- InitSetsRegistersAndKeepsMemory, LoadCopiesTheImage, ObserversChangeNothing, HostCommandOrderIsKept and
FetchThenExecuteIsOneStep: a state in each phase of the host. -/
theorem witness_phases :
    State.reset.phase = .ready ∧ (State.powerUp Config.defaultParams).phase = .powerUp ∧
      (⟨State.reset.regs, false, false, [], Config.defaultParams, .fetched, 0⟩ : State).phase = .fetched :=
  ⟨rfl, rfl, rfl⟩

/-- LoadCopiesTheImage, BootLeavesTheMachineReady: the longest image that fits and the shortest that does not. -/
theorem witness_image_lengths :
    (List.replicate 65536 (0#8 : Byte)).length ≤ 65536 ∧ 65536 < (List.replicate 65537 (0#8 : Byte)).length := by
  rw [List.length_replicate, List.length_replicate]; decide

/-- HostCommandOrderIsKept, mid-cycle clause: a command that is not EXECUTE. -/
theorem witness_not_execute : HostCommand.fetch ≠ HostCommand.execute := by decide

/-- Every `wordInRange` clause and its negation: 0xFFFF under wrap and 0xFFFE under fault have a second byte, 0xFFFF under
fault has none. -/
theorem witness_wordInRange :
    State.reset.wordInRange 0xFFFF#16 ∧ faulty.wordInRange 0xFFFE#16 ∧ ¬faulty.wordInRange 0xFFFF#16 := by decide

/-- HostCommandsKeepMemoryCanonical: canonical memory and a command that answers a next state. -/
theorem witness_HostCommandsKeepMemoryCanonical :
    State.reset.mem.wf = true ∧ command (.load [0x12#8, 0x00#8]) State.reset = .next (State.reset.hostLoad [0x12#8, 0x00#8], .none) :=
  ⟨rfl, rfl⟩

/-- FetchLoadsIrAndAdvancesPc: halted; running with PC at 0xFFFF under wrap; running with PC at 0xFFFF under fault. -/
theorem witness_FetchLoadsIrAndAdvancesPc :
    State.reset.setHalted.halted = true ∧
      ((State.reset.setReg .pc 0xFFFF#16).halted = false ∧ (State.reset.setReg .pc 0xFFFF#16).wordInRange 0xFFFF#16) ∧
      ((faulty.setReg .pc 0xFFFF#16).halted = false ∧
        ¬(faulty.setReg .pc 0xFFFF#16).wordInRange ((faulty.setReg .pc 0xFFFF#16).reg .pc)) := by decide

/-- StepRunsTheDecodedInstruction, StepAlwaysCompletesUnderWrap, StepFaultsExactlyAtTheTopAddress. -/
theorem witness_StepRunsTheDecodedInstruction :
    (State.reset.withFetchWord 16 0x4105).phase = .ready ∧ (State.reset.withFetchWord 16 0x4105).halted = false ∧
      (State.reset.withFetchWord 16 0x4105).wordInRange ((State.reset.withFetchWord 16 0x4105).reg .pc) ∧
      (State.reset.withFetchWord 16 0x4105).params.edgeWord = .wrap ∧
      decode ((State.reset.withFetchWord 16 0x4105).wordAt ((State.reset.withFetchWord 16 0x4105).reg .pc)) =
        .loadImmediate 1#3 0x05#8 := by decide

/-- HaltedMachineIsFrozen, HaltedIsStickyAndSetOnlyByHalt, ErroredIsStickyAndSetOnlyByErrorWords: a halted and errored
state between cycles, and the command that clears both flags. -/
theorem witness_halted_errored :
    State.reset.setHalted.setErrored.halted = true ∧ State.reset.setHalted.setErrored.errored = true ∧
      State.reset.setHalted.setErrored.phase = .ready ∧
      command (.hostInit 0#16 0#16) State.reset.setHalted.setErrored =
        .next (State.reset.setHalted.setErrored.hostInit 0#16 0#16, .none) ∧
      (State.reset.setHalted.setErrored.hostInit 0#16 0#16).halted = false ∧
      (State.reset.setHalted.setErrored.hostInit 0#16 0#16).errored = false := ⟨rfl, rfl, rfl, rfl, rfl, rfl⟩

/-- The statements over 'step answers next' (sticky flags, invariant, parameters): a step on a halt word, an error word, an
illegal word, a word that is none of them, and a step of a halted state. -/
theorem witness_step_next :
    [0x0000, 0x07FF, 0x1800, 0x1FFF, 0x2000, 0x3FFF, 0x7800, 0x7FFF, 0xA800, 0xB7FF, 0x0800, 0xFFFF].all (fun w =>
      (runWord State.reset w).isSome) = true ∧ (nextOf (step State.reset.setHalted)).isSome = true := by decide

/-- StepFaultsExactlyAtTheTopAddress: both ways to the fault, and no fault. -/
theorem witness_StepFaults :
    faultOf (step (faulty.setReg .pc 0xFFFF#16)) = some (.wordAtTop .fetch) ∧
      faultOf (step ((faulty.setReg .bp 0x0001#16).withFetchWord 16 0x1000)) = some (.wordAtTop .pop) ∧
      (nextOf (step (faulty.withFetchWord 16 0x0800))).isSome = true := by decide

/-- StepKeepsTheInvariant: a state of the invariant, its memory not empty, whose step answers a next state. -/
theorem witness_StepKeepsTheInvariant :
    ((State.reset.withFetchWord 16 0x6750).mem.wf = true ∧ (State.reset.withFetchWord 16 0x6750).phase = .ready) ∧
      (nextOf (step (State.reset.withFetchWord 16 0x6750))).isSome = true := by decide

/-- RegistersChangeOnlyAsDestinations, MemoryChangesOnlyWhereStored: an instruction of every shape answers next. -/
theorem witness_exec_next :
    [Instr.halt, .ret, .loadIndexed 1#3 2#3 0x1F#5, .storeIndexed 1#3 2#3 0x10#5, .addRegister 0#3 7#3, .move 0#3 7#3,
      .jumpIfZero 0xFFF#12, .call 0x010#12].all (fun i => (nextOf (exec i State.reset)).isSome) = true := by decide

/-- StoredWordIsWhatTheNextFetchReads: for each store an address that is PC (0x00FF; 0xFFFF under wrap), for call a
target that is SP and one that is SP + 2 with SP = 0xFFFF under wrap. -/
theorem witness_StoredWordIsWhatTheNextFetchReads :
    State.reset.halted = false ∧ ((0xFF#8).zeroExtend 16 = (State.reset.setReg .pc 0x00FF#16).reg .pc) ∧
      ((State.reset.setReg .pc 0xFFFF#16).fieldReg 7#3 = 0xFFFF#16 ∧
        (State.reset.setReg .pc 0xFFFF#16).wordInRange 0xFFFF#16) ∧
      (State.reset.setReg .r2 0x0010#16).indexedAddr 2#3 0x10#5 = (State.reset.setReg .r2 0x0010#16).reg .pc ∧
      State.reset.reg .sp = (0x100#12).zeroExtend 16 ∧
      ((State.reset.setReg .sp 0xFFFF#16).reg .sp + 2#16 = (0x001#12).zeroExtend 16 ∧
        (State.reset.setReg .sp 0xFFFF#16).wordInRange 0xFFFF#16) := by decide

/-- NopCycleAfterInit: a nop word, unused bits set, at the launch address 0xFFFF under wrap. -/
theorem witness_NopCycleAfterInit :
    ((wordPut State.reset 0xFFFF#16 0x0FFF#16).hostInit 0x0100#16 0xFFFF#16).wordInRange 0xFFFF#16 ∧
      ((wordPut State.reset 0xFFFF#16 0x0FFF#16).hostInit 0x0100#16 0xFFFF#16).wordAt 0xFFFF#16 &&& 0xF800#16 =
        0x0800#16 := by decide

/-- IllegalWordCycleOnlySetsErrored: the first and last word of each illegal range. -/
theorem witness_illegal_words :
    isIllegalWord 0x2000#16 ∧ isIllegalWord 0x3FFF#16 ∧ isIllegalWord 0x7800#16 ∧ isIllegalWord 0x7FFF#16 ∧
      isIllegalWord 0xA800#16 ∧ isIllegalWord 0xB7FF#16 ∧ isErrorWord 0x1800#16 ∧ isErrorWord 0x1FFF#16 := by
  unfold isIllegalWord isErrorWord; decide

/-- IllegalWordCycleOnlySetsErrored: an illegal word at PC, and one in IR. -/
theorem witness_IllegalWordCycle :
    (State.reset.withFetchWord 16 0x7800).phase = .ready ∧ (State.reset.withFetchWord 16 0x7800).halted = false ∧
      (State.reset.withFetchWord 16 0x7800).wordInRange 0x0000#16 ∧
      (State.reset.withFetchWord 16 0x7800).wordAt 0x0000#16 = 0x7800#16 ∧
      (State.reset.setReg .ir 0x7800#16).reg .ir = 0x7800#16 := by decide

/-- ReturnPopsTheFrame, CallPushesTheFrame: both words in range at the last such frames under fault, and the frames whose
first or second word is at 0xFFFF. -/
theorem witness_frames :
    (faulty.wordInRange 0xFFFE#16 ∧ faulty.wordInRange (0xFFFE#16 - 2#16)) ∧
      ¬(faulty.wordInRange 0xFFFF#16 ∧ faulty.wordInRange (0xFFFF#16 - 2#16)) ∧
      ¬(faulty.wordInRange 0x0001#16 ∧ faulty.wordInRange (0x0001#16 - 2#16)) ∧
      (faulty.wordInRange 0xFFFC#16 ∧ faulty.wordInRange (0xFFFC#16 + 2#16)) ∧
      ¬(faulty.wordInRange 0xFFFF#16 ∧ faulty.wordInRange (0xFFFF#16 + 2#16)) ∧
      ¬(faulty.wordInRange 0xFFFD#16 ∧ faulty.wordInRange (0xFFFD#16 + 2#16)) := by decide

/-- The range clauses of LoadIndirect, LoadIndexed, StoreIndirect and StoreIndexed: base registers that give 0xFFFE, and
0xFFFF (no second byte) under fault. -/
theorem witness_transfer_addresses :
    faulty.wordInRange ((faulty.setReg .r2 0xFFFE#16).fieldReg 2#3) ∧
      ¬faulty.wordInRange ((faulty.setReg .r2 0xFFFF#16).fieldReg 2#3) ∧
      faulty.wordInRange ((faulty.setReg .r2 0xFFFF#16).indexedAddr 2#3 0x1F#5) ∧
      ¬faulty.wordInRange ((faulty.setReg .r2 0x000F#16).indexedAddr 2#3 0x10#5) := by decide

/-- JumpIfZeroResult, JumpIfNegativeResult: AC on both sides of each test. -/
theorem witness_AC :
    State.reset.reg .ac = 0x0000#16 ∧ (State.reset.setReg .ac 0x0001#16).reg .ac ≠ 0x0000#16 ∧
      ((State.reset.setReg .ac 0x8000#16).reg .ac).getLsbD 15 = true ∧
      ((State.reset.setReg .ac 0x7FFF#16).reg .ac).getLsbD 15 = false := by decide

/-- LoadImmediateResult, LoadAbsoluteResult, LoadIndirectResult, LoadIndexedResult, MoveResult: a destination that is not
IR. ExecuteWritesIrOnlyWhereTheMapNamesIt: a map that leaves IR out; a map that gives fields 0 and 7 IR, on a machine of
each kind; a word in range. -/
theorem witness_destination_ir :
    (∀ f : RegField, regOf Config.defaultParams f ≠ .ir) ∧ (regOf irMap 0#3 = .ir ∧ regOf irMap 7#3 = .ir) ∧
      irMap.irByField = .kept ∧ irMapWritten.irByField = .written ∧ regOf irMapWritten 0#3 = .ir ∧
      ({ State.reset with params := irMap } : State).wordInRange 0xFFFF#16 := by decide

/-- MoveResult: two fields that select one register. -/
theorem witness_move_same :
    regOf { Config.defaultParams with regMap := #v[.r0, .r0, .r2, .r3, .ac, .sp, .bp, .pc] } 0#3 =
      regOf { Config.defaultParams with regMap := #v[.r0, .r0, .r2, .r3, .ac, .sp, .bp, .pc] } 1#3 := by decide

/-- CallThenReturnRestoresTheCaller: a call that completes, and the state it leaves as the later state (whose words are
then as the call left them). -/
theorem witness_CallThenReturn :
    ∃ t, exec (.call 0x010#12) State.reset = .next t ∧ t.params = State.reset.params ∧
      t.reg .bp = State.reset.reg .sp + 2#16 := ⟨_, rfl, rfl, rfl⟩

end Sys2Proof.Tests
end

section
/-! SUPPORT. The fields of State that are the model's own (parameters, host phase, draws taken): what each operation, each
instruction and each step does to them. -/

namespace Sys2Proof.Machine

variable {s t u : State}

/-! ### The operations that keep the model's own fields -/

theorem OwnKept.refl (s : State) : OwnKept s s := ⟨rfl, rfl, rfl⟩

theorem OwnKept.trans (h : OwnKept s t) (h' : OwnKept t u) : OwnKept s u := by
  obtain ⟨hp, hph, hd⟩ := h
  obtain ⟨hp', hph', hd'⟩ := h'
  exact ⟨hp'.trans hp, hph'.trans hph, hd'.trans hd⟩

theorem setReg_ownKept (s : State) (r : Reg) (v : Word) : OwnKept s (s.setReg r v) := ⟨rfl, rfl, rfl⟩

theorem setFieldReg_ownKept (s : State) (f : RegField) (v : Word) : OwnKept s (s.setFieldReg f v) :=
  ⟨s.setFieldReg_params v f, s.setFieldReg_phase v f, s.setFieldReg_draws v f⟩

theorem putWord_ownKept (s : State) (a v : Word) : OwnKept s (s.putWord a v) := ⟨rfl, rfl, rfl⟩

theorem setHalted_ownKept (s : State) : OwnKept s s.setHalted := ⟨rfl, rfl, rfl⟩

theorem setErrored_ownKept (s : State) : OwnKept s s.setErrored := ⟨rfl, rfl, rfl⟩

theorem fetched_ownKept (s : State) : OwnKept s s.fetched := ⟨rfl, rfl, rfl⟩

/-- The conditional jumps: either way keeps the model's own fields. -/
theorem ite_ownKept {c : Prop} [Decidable c] (h : OwnKept s u) : OwnKept s (if c then u else s) := by
  split
  · exact h
  · exact .refl s

/-! ### The shared meanings -/

theorem loadFrom_ownKept {f : RegField} {a : Word} (h : loadFrom s f a = .next t) : OwnKept s t := by
  obtain ⟨-, rfl⟩ := loadFrom_next h
  exact setFieldReg_ownKept s f _

theorem storeTo_ownKept {f : RegField} {a : Word} (h : storeTo s f a = .next t) : OwnKept s t := by
  obtain ⟨-, rfl⟩ := storeTo_next h
  exact putWord_ownKept s a _

theorem execRet_ownKept (h : execRet s = .next t) : OwnKept s t := by
  obtain ⟨-, -, rfl⟩ := execRet_next h
  exact ⟨rfl, rfl, rfl⟩

theorem execCall_ownKept {t12 : BitVec 12} (h : execCall t12 s = .next t) : OwnKept s t := by
  obtain ⟨-, -, rfl⟩ := execCall_next h
  exact ⟨rfl, rfl, rfl⟩

/-! ### One instruction, one step -/

/-- The model's own fields are kept, but for one draw where `LEGACY_REGB` is `unknown` (30_encoding.md R94, log 5). -/
def OwnKeptButDraw (s t : State) : Prop :=
  OwnKept s t ∨ (s.params.legacyRegB = .unknown ∧ OwnKept s.afterDraw t)

theorem OwnKeptButDraw.of_next (hk : OwnKept s u) (h : (.next u : Result) = .next t) : OwnKeptButDraw s t := by
  cases h
  exact .inl hk

/-- Only the two-register arithmetic can take a draw. -/
theorem arithRegister_ownKeptButDraw {op : Word → Word → Word} {regA regB : RegField}
    (h : arithRegister op regA regB s = .next t) : OwnKeptButDraw s t := by
  rcases arithRegister_next h with ⟨-, rfl⟩ | ⟨hl, rfl⟩
  · exact .inl (setReg_ownKept s .ac _)
  · exact .inr ⟨hl, setReg_ownKept s.afterDraw .ac _⟩

/-- What an instruction can do to the model's own fields. -/
theorem exec_ownKeptButDraw (i : Instr) (h : exec i s = .next t) : OwnKeptButDraw s t := by
  cases i with
  | halt => exact .of_next (setHalted_ownKept s) h
  | nop => exact .of_next (.refl s) h
  | ret => exact .inl (execRet_ownKept h)
  | call => exact .inl (execCall_ownKept h)
  | error | illegalFlow100 | illegalFlow101 | illegalFlow110 | illegalFlow111
  | illegalTransfer111 | illegalManipulate101 | illegalManipulate110 => exact .of_next (setErrored_ownKept s) h
  | loadImmediate | move => exact .of_next (setFieldReg_ownKept s _ _) h
  | loadAbsolute | loadIndirect | loadIndexed => exact .inl (loadFrom_ownKept h)
  | storeAbsolute | storeIndirect | storeIndexed => exact .inl (storeTo_ownKept h)
  | negate | addImmediate | subtractImmediate => exact .of_next (setReg_ownKept s .ac _) h
  | addRegister | subtractRegister => exact arithRegister_ownKeptButDraw h
  | jump => exact .of_next (setReg_ownKept s .pc _) h
  | jumpIfZero | jumpIfNegative => exact .of_next (ite_ownKept (setReg_ownKept s .pc _)) h

/-- What a step can do to the model's own fields: the fetch keeps them, so it is what the instruction does. -/
theorem step_ownKeptButDraw (h : step s = .next t) : OwnKeptButDraw s t := by
  obtain ⟨-, ⟨-, rfl⟩ | ⟨-, -, he⟩⟩ := step_next h
  · exact .inl (.refl t)
  · rcases exec_ownKeptButDraw _ he with hk | ⟨hl, hk⟩
    · exact .inl ((fetched_ownKept s).trans hk)
    · exact .inr ⟨hl, hk⟩

/-- Settles O31, from what a step can do to the model's own fields. -/
theorem stepKeepsTheParameters : Obligations.StepKeepsTheParameters := by
  intro s t h
  rcases step_ownKeptButDraw h with ⟨hp, -, hd⟩ | ⟨hl, hp, -, hd⟩
  · exact ⟨hp, .inl hd⟩
  · exact ⟨hp, .inr ⟨hd, hl⟩⟩

end Sys2Proof.Machine
end

section
/-! SUPPORT. The registers: what each instruction writes and what it leaves (10_state.md R22, R29), IR among them. -/

namespace Sys2Proof.Machine

variable {s t u : State} {l : List Reg}

/-! ### The operations and the registers they keep -/

theorem RegsKeptBut.refl (s : State) (l : List Reg) : RegsKeptBut s s l := fun _ _ => rfl

/-- A write of a listed register keeps the others. -/
theorem RegsKeptBut.setReg {r : Reg} (h : RegsKeptBut s t l) (hr : r ∈ l) (v : Word) :
    RegsKeptBut s (t.setReg r v) l := by
  intro q hq
  have hne : q ≠ r := fun e => hq (e ▸ hr)
  rw [State.setReg_reg, if_neg hne, h q hq]

/-- A word write keeps the registers. -/
theorem RegsKeptBut.putWord (h : RegsKeptBut s t l) (a v : Word) : RegsKeptBut s (t.putWord a v) l := h

/-- The conditional jumps: either way keeps the registers not listed. -/
theorem RegsKeptBut.ite {c : Prop} [Decidable c] (h : RegsKeptBut s u l) : RegsKeptBut s (if c then u else s) l := by
  split
  · exact h
  · exact .refl s l

theorem RegsKeptBut.of_next (hk : RegsKeptBut s u l) (h : (.next u : Result) = .next t) : RegsKeptBut s t l := by
  cases h
  exact hk

theorem setReg_regsKept (s : State) (r : Reg) (v : Word) : RegsKeptBut s (s.setReg r v) [r] :=
  (RegsKeptBut.refl s [r]).setReg (.head _) v

theorem setHalted_regsKept (s : State) : RegsKeptBut s s.setHalted l := fun q _ => s.setHalted_reg q

theorem setErrored_regsKept (s : State) : RegsKeptBut s s.setErrored l := fun q _ => s.setErrored_reg q

/-- A register write changes the register and nothing else. -/
theorem setReg_onlyRegSet (s : State) (r : Reg) (v : Word) : OnlyRegSet s (s.setReg r v) r v :=
  ⟨by rw [State.setReg_reg, if_pos rfl], setReg_regsKept s r v, fun _ _ => rfl, ⟨rfl, rfl⟩, setReg_ownKept s r v⟩

/-- A write through a field that selects IR, where the machine writes IR, changes IR and nothing else (log 15). -/
theorem setFieldReg_onlyIrSet {f : RegField} (hw : s.params.irByField = .written) (hf : regOf s.params f = .ir)
    (v : Word) : OnlyRegSet s (s.setFieldReg f v) .ir v := by
  rw [State.setFieldReg_of_written s v f hw, hf]
  exact setReg_onlyRegSet s .ir v

/-! ### The shared meanings -/

theorem loadFrom_regsKept {f : RegField} {a : Word} (h : loadFrom s f a = .next t) :
    RegsKeptBut s t (destReg s.params f) := by
  obtain ⟨-, rfl⟩ := loadFrom_next h
  exact setFieldReg_kept f _

theorem storeTo_regsKept {f : RegField} {a : Word} (h : storeTo s f a = .next t) : RegsKeptBut s t [] := by
  obtain ⟨-, rfl⟩ := storeTo_next h
  exact (RegsKeptBut.refl s []).putWord a _

theorem arithRegister_regsKept {op : Word → Word → Word} {regA regB : RegField}
    (h : arithRegister op regA regB s = .next t) : RegsKeptBut s t [.ac] := by
  rcases arithRegister_next h with ⟨-, rfl⟩ | ⟨-, rfl⟩
  · exact setReg_regsKept s .ac _
  · exact setReg_regsKept s.afterDraw .ac _

theorem execRet_regsKept (h : execRet s = .next t) : RegsKeptBut s t [.sp, .bp, .pc] := by
  obtain ⟨-, -, rfl⟩ := execRet_next h
  exact ((((RegsKeptBut.refl s _).setReg (by decide) _).setReg (by decide) _).setReg (by decide) _).setReg (by decide) _

theorem execCall_regsKept {t12 : BitVec 12} (h : execCall t12 s = .next t) : RegsKeptBut s t [.sp, .bp, .pc] := by
  obtain ⟨-, -, rfl⟩ := execCall_next h
  exact ((((((RegsKeptBut.refl s _).putWord _ _).setReg (by decide) _).setReg (by decide) _).putWord _ _).setReg
    (by decide) _).setReg (by decide) _

/-! ### One instruction -/

/-- Settles O32, by cases on the instruction. -/
theorem registersChangeOnlyAsDestinations : Obligations.RegistersChangeOnlyAsDestinations := by
  intro i s t h
  cases i with
  | halt => exact .of_next (setHalted_regsKept s) h
  | nop => exact .of_next (.refl s []) h
  | error | illegalFlow100 | illegalFlow101 | illegalFlow110 | illegalFlow111
  | illegalTransfer111 | illegalManipulate101 | illegalManipulate110 => exact .of_next (setErrored_regsKept s) h
  | ret => exact execRet_regsKept h
  | call => exact execCall_regsKept h
  | loadImmediate | move => exact .of_next (setFieldReg_kept _ _) h
  | loadAbsolute | loadIndirect | loadIndexed => exact loadFrom_regsKept h
  | storeAbsolute | storeIndirect | storeIndexed => exact storeTo_regsKept h
  | negate | addImmediate | subtractImmediate => exact .of_next (setReg_regsKept s .ac _) h
  | addRegister | subtractRegister => exact arithRegister_regsKept h
  | jump => exact .of_next (setReg_regsKept s .pc _) h
  | jumpIfZero | jumpIfNegative => exact .of_next (setReg_regsKept s .pc _).ite h

/-- What execute can do: stay where it is halted, or run the instruction in IR. -/
theorem execute_next (h : execute s = .next t) :
    (s.halted = true ∧ t = s) ∨ (s.halted = false ∧ exec (decode (s.reg .ir)) s = .next t) := by
  unfold execute at h
  split at h
  · next hh => cases h; exact .inl ⟨hh, rfl⟩
  · next hh => exact .inr ⟨by simpa using hh, h⟩

/-- Where execute cannot write IR, no instruction changes it. -/
theorem exec_keeps_ir (hp : irOutOfReach s.params) {i : Instr} (h : exec i s = .next t) : t.reg .ir = s.reg .ir :=
  registersChangeOnlyAsDestinations i s t h .ir (ir_not_mem_destRegs hp i)

/-- A load completes with the register write its field makes. -/
theorem exec_loads (s : State) (a b : RegField) (imm8 addr8 : BitVec 8) (off5 : BitVec 5) :
    exec (.loadImmediate a imm8) s = .next (s.setFieldReg a (imm8.signExtend 16)) ∧
    exec (.loadAbsolute a addr8) s = .next (s.setFieldReg a (s.wordAt (addr8.zeroExtend 16))) ∧
    (s.wordInRange (s.reg (regOf s.params b)) →
      exec (.loadIndirect a b) s = .next (s.setFieldReg a (s.wordAt (s.reg (regOf s.params b))))) ∧
    (s.wordInRange (s.reg (regOf s.params b) + off5.signExtend 16) →
      exec (.loadIndexed a b off5) s =
        .next (s.setFieldReg a (s.wordAt (s.reg (regOf s.params b) + off5.signExtend 16)))) :=
  ⟨rfl, loadFrom_inRange (zextAddr8_inRange s addr8), fun h => loadFrom_inRange h, fun h => loadFrom_inRange h⟩

/-- Settles O60: IR is no destination where execute cannot write it, and otherwise the field write decides. -/
theorem executeWritesIrOnlyWhereTheMapNamesIt : Obligations.ExecuteWritesIrOnlyWhereTheMapNamesIt := by
  refine ⟨?execute, fun i s t hp h => exec_keeps_ir hp h, ?kept, ?written⟩
  case execute =>
    intro s t hp h
    rcases execute_next h with ⟨-, rfl⟩ | ⟨-, he⟩
    · rfl
    · exact exec_keeps_ir hp he
  case kept =>
    intro s a b imm8 addr8 off5 hk
    obtain ⟨himm, habs, hind, hidx⟩ := exec_loads s a b imm8 addr8 off5
    refine ⟨fun ha => ?_, fun hb => ?_⟩
    · simp only [State.setFieldReg_of_kept s _ a ha hk] at himm habs hind hidx
      exact ⟨himm, habs, hind, hidx⟩
    · exact congrArg _ (State.setFieldReg_of_kept s _ b hb hk)
  case written =>
    intro s a b imm8 addr8 off5 hw
    obtain ⟨himm, habs, hind, hidx⟩ := exec_loads s a b imm8 addr8 off5
    refine ⟨fun ha => ?_, fun hb => ⟨_, rfl, setFieldReg_onlyIrSet hw hb _⟩⟩
    have write := setFieldReg_onlyIrSet hw ha
    exact ⟨⟨_, himm, write _⟩, ⟨_, habs, write _⟩, fun hr => ⟨_, hind hr, write _⟩, fun hr => ⟨_, hidx hr, write _⟩⟩

end Sys2Proof.Machine
end

section
/-! SUPPORT. The host's commands: what each can do (40_cycle.md R110, R117), the reset state and the observers. -/

namespace Sys2Proof.Machine

variable {s t : State}

theorem betweenCycles_of_ne_fetched (h : s.phase ≠ .fetched) (k : CommandResult) : betweenCycles s k = k := by
  unfold betweenCycles
  cases hp : s.phase with
  | fetched => exact absurd hp h
  | powerUp | ready => rfl

theorem betweenCycles_next {k : CommandResult} {x : State × HostReply} (h : betweenCycles s k = .next x) :
    k = .next x := by
  by_cases hp : s.phase = .fetched
  · rw [betweenCycles, hp] at h; cases h
  · rwa [betweenCycles_of_ne_fetched hp] at h

theorem commandLoad_next {image : List Byte} {r : HostReply} (h : commandLoad image s = .next (t, r)) :
    image.length ≤ Memory.size ∧ t = s.hostLoad image := by
  unfold commandLoad at h
  split at h
  · next hl => cases h; exact ⟨hl, rfl⟩
  · cases h

theorem commandFetch_next {r : HostReply} (h : commandFetch s = .next (t, r)) :
    ∃ u, fetch s = .ok u ∧ t = { u with phase := .fetched } := by
  unfold commandFetch at h
  cases hp : s.phase with
  | powerUp | fetched => rw [hp] at h; cases h
  | ready =>
    rw [hp] at h
    obtain ⟨u, hu, hn⟩ := orFault_next h
    cases hn
    exact ⟨u, hu, rfl⟩

theorem commandExecute_next {r : HostReply} (h : commandExecute s = .next (t, r)) :
    ∃ u, execute s = .next u ∧ t = { u with phase := .ready } := by
  unfold commandExecute at h
  cases hp : s.phase with
  | powerUp | ready => rw [hp] at h; cases h
  | fetched =>
    rw [hp] at h
    cases he : execute s with
    | next u => rw [he] at h; cases h; exact ⟨u, rfl, rfl⟩
    | fault f | refused f => rw [he] at h; cases h

/-- What a host command can do: INIT, LOAD, FETCH and EXECUTE their own effect, an observer nothing. -/
theorem command_next {c : HostCommand} {r : HostReply} (h : command c s = .next (t, r)) :
    (∃ sp pc, c = .hostInit sp pc ∧ t = s.hostInit sp pc) ∨
    (∃ image, c = .load image ∧ image.length ≤ Memory.size ∧ t = s.hostLoad image) ∨
    (c = .fetch ∧ ∃ u, fetch s = .ok u ∧ t = { u with phase := .fetched }) ∨
    (c = .execute ∧ ∃ u, execute s = .next u ∧ t = { u with phase := .ready }) ∨
    t = s := by
  cases c with
  | hostInit sp pc => cases betweenCycles_next h; exact .inl ⟨sp, pc, rfl, rfl⟩
  | load image => exact .inr (.inl ⟨image, rfl, commandLoad_next (betweenCycles_next h)⟩)
  | fetch => exact .inr (.inr (.inl ⟨rfl, commandFetch_next h⟩))
  | execute => exact .inr (.inr (.inr (.inl ⟨rfl, commandExecute_next h⟩)))
  | readReg | isHalted | hasErrored | readByte =>
    cases betweenCycles_next h
    exact .inr (.inr (.inr (.inr rfl)))
  | readWord a =>
    obtain ⟨v, -, hn⟩ := orFault_next (betweenCycles_next h)
    cases hn
    exact .inr (.inr (.inr (.inr rfl)))

/-- Settles O15: the reset state's fields are INIT's, and its memory is empty. -/
theorem resetIsInitOfPowerUpMemory : Obligations.ResetIsInitOfPowerUpMemory :=
  ⟨rfl, fun _ => Memory.readByte_nil _, rfl, rfl, rfl, by decide, rfl, rfl⟩

/-- Settles O19: outside a cycle each observer's reply is what it reads; only the word read can stop. -/
theorem observersChangeNothing : Obligations.ObserversChangeNothing := by
  intro s hp
  have answers : ∀ k, betweenCycles s k = k := betweenCycles_of_ne_fetched hp
  refine ⟨fun r => answers _, answers _, answers _, fun a => answers _, fun a hr => ?_, fun a hr => ?_⟩
  · rw [command, answers, readWord_inRange hr, orFault_ok]
  · rw [command, answers, readWord_outOfRange hr, orFault_error]

end Sys2Proof.Machine
end

section
/-! SUPPORT. The two sticky flags (10_state.md R24, R25): the words that set them, and what each instruction, each step
and each host command does to them. -/

namespace Sys2Proof

/-! ### The words that set a flag -/

section Words
variable {w : Word}

/-- Bits 15:11 as a number. -/
theorem opcode_lt (w : Word) : w.toNat / 2048 < 32 := by have := w.isLt; omega

/-- The halt words: bits 15:11 zero (R130). -/
theorem decode_eq_halt_iff : decode w = .halt ↔ w &&& 0xF800#16 = 0x0000#16 := by
  rw [← BitVec.toNat_inj, and_maskF800_toNat, decode_eq_byOpcode]
  have hk := opcode_lt w
  generalize w.toNat / 2048 = k at hk
  interval_cases k <;> simp

/-- The error words (R133). -/
theorem decode_eq_error_iff : decode w = .error ↔ Machine.isErrorWord w := by
  have hrange : Machine.isErrorWord w ↔ w.toNat / 2048 = 3 := by unfold Machine.isErrorWord; omega
  rw [hrange, decode_eq_byOpcode]
  have hk := opcode_lt w
  generalize w.toNat / 2048 = k at hk
  interval_cases k <;> simp

/-- The illegal words (R97). -/
theorem decode_isDefined_eq_false_iff : (decode w).isDefined = false ↔ Machine.isIllegalWord w := by
  have hrange : Machine.isIllegalWord w ↔
      (4 ≤ w.toNat / 2048 ∧ w.toNat / 2048 ≤ 7) ∨ w.toNat / 2048 = 15 ∨
        (21 ≤ w.toNat / 2048 ∧ w.toNat / 2048 ≤ 22) := by
    unfold Machine.isIllegalWord; omega
  rw [hrange, decode_eq_byOpcode]
  have hk := opcode_lt w
  generalize w.toNat / 2048 = k at hk
  interval_cases k <;> simp [Instr.isDefined]

end Words

namespace Machine

variable {s t u : State} {i : Instr}

/-! ### The shared meanings -/

theorem FlagsKept.refl (s : State) : FlagsKept s s := ⟨rfl, rfl⟩

theorem FlagsKept.of_next (hk : FlagsKept s u) (h : (.next u : Result) = .next t) : FlagsKept s t := by
  cases h
  exact hk

theorem setReg_flagsKept (s : State) (r : Reg) (v : Word) : FlagsKept s (s.setReg r v) := ⟨rfl, rfl⟩

theorem setFieldReg_flagsKept (s : State) (f : RegField) (v : Word) : FlagsKept s (s.setFieldReg f v) :=
  ⟨s.setFieldReg_halted v f, s.setFieldReg_errored v f⟩

theorem loadFrom_flagsKept {f : RegField} {a : Word} (h : loadFrom s f a = .next t) : FlagsKept s t := by
  obtain ⟨-, rfl⟩ := loadFrom_next h
  exact setFieldReg_flagsKept s f _

theorem storeTo_flagsKept {f : RegField} {a : Word} (h : storeTo s f a = .next t) : FlagsKept s t := by
  obtain ⟨-, rfl⟩ := storeTo_next h
  exact ⟨rfl, rfl⟩

theorem arithRegister_flagsKept {op : Word → Word → Word} {regA regB : RegField}
    (h : arithRegister op regA regB s = .next t) : FlagsKept s t := by
  rcases arithRegister_next h with ⟨-, rfl⟩ | ⟨-, rfl⟩ <;> exact ⟨rfl, rfl⟩

theorem execRet_flagsKept (h : execRet s = .next t) : FlagsKept s t := by
  obtain ⟨-, -, rfl⟩ := execRet_next h
  exact ⟨rfl, rfl⟩

theorem execCall_flagsKept {t12 : BitVec 12} (h : execCall t12 s = .next t) : FlagsKept s t := by
  obtain ⟨-, -, rfl⟩ := execCall_next h
  exact ⟨rfl, rfl⟩

/-- The conditional jumps: either way keeps the flags. -/
theorem ite_flagsKept {c : Prop} [Decidable c] (h : FlagsKept s u) : FlagsKept s (if c then u else s) := by
  split
  · exact h
  · exact .refl s

/-! ### One instruction -/

/-- The error instruction and the illegal rows have one effect (R121, R133). -/
theorem exec_of_error_or_illegal (hi : i = .error ∨ i.isDefined = false) (s : State) :
    exec i s = .next s.setErrored := by
  rcases hi with rfl | hd
  · rfl
  · cases i with
    | illegalFlow100 | illegalFlow101 | illegalFlow110 | illegalFlow111
    | illegalTransfer111 | illegalManipulate101 | illegalManipulate110 => rfl
    | _ => cases hd

/-- A defined instruction other than halt and error keeps both flags. -/
theorem exec_flagsKept (hh : i ≠ .halt) (he : i ≠ .error) (hd : i.isDefined = true) (h : exec i s = .next t) :
    FlagsKept s t := by
  cases i with
  | halt => exact absurd rfl hh
  | error => exact absurd rfl he
  | illegalFlow100 | illegalFlow101 | illegalFlow110 | illegalFlow111
  | illegalTransfer111 | illegalManipulate101 | illegalManipulate110 => cases hd
  | nop => exact .of_next (.refl s) h
  | ret => exact execRet_flagsKept h
  | call => exact execCall_flagsKept h
  | loadImmediate | move => exact .of_next (setFieldReg_flagsKept s _ _) h
  | loadAbsolute | loadIndirect | loadIndexed => exact loadFrom_flagsKept h
  | storeAbsolute | storeIndirect | storeIndexed => exact storeTo_flagsKept h
  | negate | addImmediate | subtractImmediate => exact .of_next (setReg_flagsKept s .ac _) h
  | addRegister | subtractRegister => exact arithRegister_flagsKept h
  | jump => exact .of_next (setReg_flagsKept s .pc _) h
  | jumpIfZero | jumpIfNegative => exact .of_next (ite_flagsKept (setReg_flagsKept s .pc _)) h

/-- What an instruction can do to the flags: halt sets `halted`, error and the illegal rows set `errored`, and every
other instruction keeps both. -/
theorem exec_flags (h : exec i s = .next t) :
    (i = .halt ∧ t = s.setHalted) ∨
    ((i = .error ∨ i.isDefined = false) ∧ t = s.setErrored) ∨
    ((i ≠ .halt ∧ i ≠ .error ∧ i.isDefined = true) ∧ FlagsKept s t) := by
  by_cases hi : i = .error ∨ i.isDefined = false
  · rw [exec_of_error_or_illegal hi] at h
    cases h
    exact .inr (.inl ⟨hi, rfl⟩)
  · obtain ⟨he, hd⟩ := not_or.1 hi
    rw [Bool.not_eq_false] at hd
    by_cases hh : i = .halt
    · subst hh
      cases h
      exact .inl ⟨rfl, rfl⟩
    · exact .inr (.inr ⟨⟨hh, he, hd⟩, exec_flagsKept hh he hd h⟩)

/-- `halted` after an instruction. -/
theorem exec_halted_iff (h : exec i s = .next t) : t.halted = true ↔ s.halted = true ∨ i = .halt := by
  rcases exec_flags h with ⟨rfl, rfl⟩ | ⟨hi, rfl⟩ | ⟨⟨hn, -, -⟩, hk, -⟩
  · simp
  · have hn : i ≠ .halt := by rintro rfl; rcases hi with hi | hi <;> cases hi
    simp [hn]
  · simp [hk, hn]

/-- `errored` after an instruction. -/
theorem exec_errored_iff (h : exec i s = .next t) :
    t.errored = true ↔ s.errored = true ∨ i = .error ∨ i.isDefined = false := by
  rcases exec_flags h with ⟨rfl, rfl⟩ | ⟨hi, rfl⟩ | ⟨⟨-, hn, hd⟩, -, hk⟩
  · simp [Instr.isDefined]
  · simp [hi]
  · simp [hk, hn, hd]

/-! ### Steps and commands -/

/-- A flag that is set stays set. -/
def FlagsStaySet (s t : State) : Prop := (s.halted = true → t.halted = true) ∧ (s.errored = true → t.errored = true)

theorem FlagsStaySet.refl (s : State) : FlagsStaySet s s := ⟨id, id⟩

theorem fetch_flagsStaySet (h : fetch s = .ok t) : FlagsStaySet s t := by
  rcases fetch_ok h with ⟨-, rfl⟩ | ⟨-, -, rfl⟩ <;> exact ⟨id, id⟩

theorem execute_flagsStaySet (h : execute s = .next t) : FlagsStaySet s t := by
  rcases execute_next h with ⟨-, rfl⟩ | ⟨-, he⟩
  · exact .refl t
  · exact ⟨fun hs => (exec_halted_iff he).2 (.inl hs), fun hs => (exec_errored_iff he).2 (.inl hs)⟩

/-- Of the host's commands only INIT can clear a flag. -/
theorem command_flagsStaySet {c : HostCommand} {r : HostReply} (h : command c s = .next (t, r)) :
    (∃ sp pc, c = .hostInit sp pc) ∨ FlagsStaySet s t := by
  rcases command_next h with ⟨sp, pc, hc, -⟩ | ⟨image, -, -, rfl⟩ | ⟨-, u, hu, rfl⟩ | ⟨-, u, hu, rfl⟩ | rfl
  · exact .inl ⟨sp, pc, hc⟩
  · exact .inr ⟨id, id⟩
  · have hf := fetch_flagsStaySet hu
    exact .inr hf
  · have hf := execute_flagsStaySet hu
    exact .inr hf
  · exact .inr (.refl t)

theorem execute_of_halted (h : s.halted = true) : execute s = .next s := by rw [execute, if_pos h]

/-- Settles O25, from what an instruction and a host command can do to `halted`. -/
theorem haltedIsStickyAndSetOnlyByHalt : Obligations.HaltedIsStickyAndSetOnlyByHalt := by
  refine ⟨?step, fun _ _ _ => rfl, ?command, fun s hh => ⟨fetch_of_halted hh, execute_of_halted hh⟩⟩
  case step =>
    intro s t h
    obtain ⟨-, ⟨hh, rfl⟩ | ⟨-, -, he⟩⟩ := step_next h
    · exact ⟨.inl, fun _ => hh⟩
    · rw [exec_halted_iff he, fetched_halted, decode_eq_halt_iff]
  case command =>
    intro s t c r h hs ht
    refine (command_flagsStaySet h).resolve_right fun ⟨hstays, _⟩ => ?_
    rw [hstays hs] at ht
    cases ht

/-- Settles O26, from what an instruction and a host command can do to `errored`. -/
theorem erroredIsStickyAndSetOnlyByErrorWords : Obligations.ErroredIsStickyAndSetOnlyByErrorWords := by
  refine ⟨?running, ?halted, fun _ _ _ => rfl, ?command⟩
  case running =>
    intro s t h hs
    obtain ⟨-, ⟨hh, -⟩ | ⟨-, -, he⟩⟩ := step_next h
    · rw [hs] at hh; cases hh
    · rw [← decode_eq_error_iff, ← decode_isDefined_eq_false_iff]
      refine ⟨by rw [exec_errored_iff he, fetched_errored], fun hw => ?_⟩
      rcases exec_flags he with ⟨hi, -⟩ | ⟨-, rfl⟩ | ⟨-, hk, -⟩
      · rw [hi] at hw; rcases hw with hw | hw <;> cases hw
      · exact hs
      · exact hk.trans hs
  case halted =>
    intro s t h hs
    obtain ⟨-, ⟨-, rfl⟩ | ⟨hh, -, -⟩⟩ := step_next h
    · rfl
    · rw [hs] at hh; cases hh
  case command =>
    intro s t c r h hs ht
    refine (command_flagsStaySet h).resolve_right fun ⟨_, hstays⟩ => ?_
    rw [hstays hs] at ht
    cases ht

end Machine
end Sys2Proof
end

section
/-! SUPPORT. Words in memory (20_memory.md R52 to R54, R58 to R61): a word as its two bytes, what a word write changes
and what a later word read answers. -/

namespace Sys2Proof.Machine

variable {s t u : State} {why : Access} {a v : Word}

/-! ### A word and its two bytes -/

theorem highByte_append (hi lo : Byte) : highByte (hi ++ lo) = hi := by
  apply BitVec.eq_of_toNat_eq
  rw [highByte, toNat_field, toNat_append_eq]
  have := hi.isLt; have := lo.isLt
  omega

/-- The next address as a number plus one, taken modulo 2^16 (R51). -/
theorem ofNat_toNat_add_one (a : Word) : BitVec.ofNat 16 (a.toNat + 1) = a + 1#16 := by
  apply BitVec.eq_of_toNat_eq
  simp

/-- A word as R52 computes it: the first byte shifted up, the second or'ed in. -/
theorem wordAt_eq_shiftLeft_or (s : State) (a : Word) :
    s.wordAt a = (s.byteAt a).zeroExtend 16 <<< 8 ||| (s.byteAt (a + 1#16)).zeroExtend 16 := by
  rw [State.wordAt, BitVec.append_def, BitVec.shiftLeftZeroExtend_eq, BitVec.setWidth'_eq]

@[simp] theorem State.setReg_wordAt (s : State) (r : Reg) : (s.setReg r v).wordAt a = s.wordAt a := rfl

/-! ### What a word write changes -/

theorem BytesKeptBut.refl (s : State) (l : List Word) : BytesKeptBut s s l := fun _ _ => rfl

theorem BytesKeptBut.of_mem {l : List Word} (h : BytesKeptBut s t l) (hm : u.mem = t.mem) : BytesKeptBut s u l := by
  intro c hc
  rw [hm, h c hc]

/-- A word write to listed addresses keeps every other byte. -/
theorem BytesKeptBut.putWord {l : List Word} (h : BytesKeptBut s t l) (ha : a ∈ l) (ha' : a + 1#16 ∈ l) (v : Word) :
    BytesKeptBut s (t.putWord a v) l := by
  intro c hc
  rw [putWord_readByte, if_neg (hc _ ha'), if_neg (hc _ ha), h c hc]

/-- A word write stores its word, both bytes, and changes nothing else (R53); at 0xFFFF too (R54). -/
theorem putWord_onlyWordStored (s : State) (a v : Word) : OnlyWordStored s (s.putWord a v) a v :=
  ⟨putWord_byteAt_high, putWord_byteAt_low, (BytesKeptBut.refl s _).putWord (.head _) (.tail _ (.head _)) v,
    fun _ _ => rfl, ⟨rfl, rfl⟩, putWord_ownKept s a v⟩

/-- A word write two bytes on leaves the word here. -/
theorem putWord_add_two_wordAt : (s.putWord (a + 2#16) v).wordAt a = s.wordAt a := by
  have hhi : (s.putWord (a + 2#16) v).byteAt a = s.byteAt a := putWord_byteAt_ne (by bv_omega) (by bv_omega)
  have hlo : (s.putWord (a + 2#16) v).byteAt (a + 1#16) = s.byteAt (a + 1#16) :=
    putWord_byteAt_ne (by bv_omega) (by bv_omega)
  rw [State.wordAt, hhi, hlo, State.wordAt]

/-! ### Which addresses have a second byte -/

theorem wordInRange_of_ne_top (h : a ≠ 0xFFFF#16) : s.wordInRange a := .inr h

theorem not_wordInRange_iff : ¬s.wordInRange a ↔ s.params.edgeWord = .fault ∧ a = 0xFFFF#16 := by
  have hedge : ¬s.params.edgeWord = .wrap ↔ s.params.edgeWord = .fault := by cases s.params.edgeWord <;> decide
  rw [State.wordInRange, not_or, hedge, not_ne_iff]

/-- Settles O10: below the top address a word read completes, with the word as R52 computes it. -/
theorem wordReadIsBigEndian : Obligations.WordReadIsBigEndian := by
  intro s why a ha
  rw [readWord_inRange (wordInRange_of_ne_top ha), wordAt_eq_shiftLeft_or, ofNat_toNat_add_one]

/-- Settles O11: below the top address a word write completes, and it changes its two bytes only. -/
theorem wordWriteIsBigEndian : Obligations.WordWriteIsBigEndian := by
  intro s why a v ha
  exact ⟨_, writeWord_inRange (wordInRange_of_ne_top ha), putWord_onlyWordStored s a v⟩

/-- Settles O12: 0xFFFF is in range exactly under wrap, and the address after it is 0x0000. -/
theorem wordAccessAtTheTopAddress : Obligations.WordAccessAtTheTopAddress := by
  intro s why v
  refine ⟨fun hwrap => ?wrap, fun hfault => ?fault⟩
  case wrap =>
    have hr : s.wordInRange 0xFFFF#16 := .inl hwrap
    have hnext : (0xFFFF#16 : Word) + 1#16 = 0x0000#16 := by decide
    have hstored := putWord_onlyWordStored s 0xFFFF#16 v
    rw [OnlyWordStored, hnext] at hstored
    exact ⟨by rw [readWord_inRange hr, State.wordAt, hnext], _, writeWord_inRange hr, hstored⟩
  case fault =>
    have hr : ¬s.wordInRange 0xFFFF#16 := not_wordInRange_iff.2 ⟨hfault, rfl⟩
    exact ⟨readWord_outOfRange hr, writeWord_outOfRange hr⟩

/-- Settles O13: a write that completes leaves its word at the address, so its low byte at the next one. -/
theorem writtenWordReadsBack : Obligations.WrittenWordReadsBack := by
  intro s t why why' a v h
  obtain ⟨hr, rfl⟩ := writeWord_ok h
  refine ⟨?_, fun w hw => ?_⟩
  · rw [readWord_inRange (by exact hr), putWord_wordAt_same]
  · obtain ⟨-, rfl⟩ := readWord_ok hw
    calc highByte ((s.putWord a v).wordAt (a + 1#16))
      _ = (s.putWord a v).byteAt (a + 1#16) := highByte_append _ _
      _ = lowByte v := putWord_byteAt_low

end Sys2Proof.Machine
end

section
/-! SUPPORT. Memory under an instruction, a step and a host command: the words an instruction stores (R60), the canonical
form that all of them keep (log 17), and the image LOAD copies (R56). -/

namespace Sys2Proof.Machine

variable {s t : State} {i : Instr}

/-! ### The shared meanings that store nothing -/

theorem loadFrom_mem {f : RegField} {a : Word} (h : loadFrom s f a = .next t) : t.mem = s.mem := by
  obtain ⟨-, rfl⟩ := loadFrom_next h
  exact s.setFieldReg_mem _ f

theorem arithRegister_mem {op : Word → Word → Word} {regA regB : RegField}
    (h : arithRegister op regA regB s = .next t) : t.mem = s.mem := by
  rcases arithRegister_next h with ⟨-, rfl⟩ | ⟨-, rfl⟩ <;> rfl

theorem execRet_mem (h : execRet s = .next t) : t.mem = s.mem := by
  obtain ⟨-, -, rfl⟩ := execRet_next h
  rfl

/-- The conditional jumps: either way leaves memory. -/
theorem ite_jumpTo_mem {c : Prop} [Decidable c] (s : State) (t12 : BitVec 12) :
    (if c then s.jumpTo t12 else s).mem = s.mem := by
  split <;> rfl

/-! ### One instruction -/

/-- What an instruction can do to memory: nothing, store its one word, or (call) store its two words in order. -/
theorem exec_mem (h : exec i s = .next t) :
    t.mem = s.mem ∨
    (∃ a v, storedBytes s i = [a, a + 1#16] ∧ t.mem = (s.putWord a v).mem) ∨
    (∃ a v a' v', storedBytes s i = [a, a + 1#16, a', a' + 1#16] ∧ t.mem = ((s.putWord a v).putWord a' v').mem) := by
  cases i with
  | halt | nop | error | illegalFlow100 | illegalFlow101 | illegalFlow110 | illegalFlow111
  | illegalTransfer111 | illegalManipulate101 | illegalManipulate110
  | negate | addImmediate | subtractImmediate | jump =>
    cases h
    exact .inl rfl
  | loadImmediate | move =>
    cases h
    exact .inl (s.setFieldReg_mem _ _)
  | jumpIfZero | jumpIfNegative =>
    cases h
    exact .inl (ite_jumpTo_mem s _)
  | ret => exact .inl (execRet_mem h)
  | loadAbsolute | loadIndirect | loadIndexed => exact .inl (loadFrom_mem h)
  | addRegister | subtractRegister => exact .inl (arithRegister_mem h)
  | storeAbsolute | storeIndirect | storeIndexed =>
    obtain ⟨-, rfl⟩ := storeTo_next h
    exact .inr (.inl ⟨_, s.fieldReg _, rfl, rfl⟩)
  | call =>
    obtain ⟨-, -, rfl⟩ := execCall_next h
    exact .inr (.inr ⟨s.reg .sp, s.reg .pc, s.reg .sp + 2#16, s.reg .bp, rfl, rfl⟩)

/-- Settles O33, from what an instruction can do to memory. -/
theorem memoryChangesOnlyWhereStored : Obligations.MemoryChangesOnlyWhereStored := by
  intro i s t h
  have kept := BytesKeptBut.refl s (storedBytes s i)
  rcases exec_mem h with hm | ⟨a, v, hl, hm⟩ | ⟨a, v, a', v', hl, hm⟩
  · exact kept.of_mem hm
  · rw [hl] at kept ⊢
    exact (kept.putWord (by simp) (by simp) v).of_mem hm
  · rw [hl] at kept ⊢
    exact ((kept.putWord (by simp) (by simp) v).putWord (by simp) (by simp) v').of_mem hm

/-! ### The canonical form -/

theorem exec_wf (hs : s.mem.wf = true) (h : exec i s = .next t) : t.mem.wf = true := by
  rcases exec_mem h with hm | ⟨a, v, -, hm⟩ | ⟨a, v, a', v', -, hm⟩ <;> rw [hm]
  · exact hs
  · exact putWord_wf hs
  · exact putWord_wf (putWord_wf hs)

theorem fetch_mem (h : fetch s = .ok t) : t.mem = s.mem := by
  rcases fetch_ok h with ⟨-, rfl⟩ | ⟨-, -, rfl⟩ <;> rfl

theorem execute_wf (hs : s.mem.wf = true) (h : execute s = .next t) : t.mem.wf = true := by
  rcases execute_next h with ⟨-, rfl⟩ | ⟨-, he⟩
  · exact hs
  · exact exec_wf hs he

theorem step_wf (hs : s.mem.wf = true) (h : step s = .next t) : t.mem.wf = true := by
  obtain ⟨-, ⟨-, rfl⟩ | ⟨-, -, he⟩⟩ := step_next h
  · exact hs
  · exact exec_wf (s := s.fetched) hs he

/-- A step that completes leaves the host phase as it was. -/
theorem step_phase (h : step s = .next t) : t.phase = s.phase := by
  rcases step_ownKeptButDraw h with ⟨-, hph, -⟩ | ⟨-, -, hph, -⟩ <;> exact hph

/-- Settles O29: every store keeps the canonical form, and no instruction touches the host phase. -/
theorem stepKeepsTheInvariant : Obligations.StepKeepsTheInvariant := by
  rintro s t ⟨hwf, hphase⟩ h
  exact ⟨step_wf hwf h, (step_phase h).trans hphase⟩

/-- Settles O30: the reset state's memory is the empty list. -/
theorem resetMeetsTheInvariant : Obligations.ResetMeetsTheInvariant := ⟨reset_mem_wf, rfl⟩

/-- Settles O21: INIT, FETCH and the observers leave memory, LOAD copies inside it, EXECUTE runs an instruction. -/
theorem hostCommandsKeepMemoryCanonical : Obligations.HostCommandsKeepMemoryCanonical := by
  intro c s t r hs h
  rcases command_next h with ⟨sp, pc, -, rfl⟩ | ⟨image, -, hl, rfl⟩ | ⟨-, u, hu, rfl⟩ | ⟨-, u, hu, rfl⟩ | rfl
  · exact hs
  · exact hostLoad_wf hs hl
  · exact (congrArg Memory.wf (fetch_mem hu)).trans hs
  · have hu := execute_wf hs hu
    exact hu
  · exact hs

/-! ### LOAD -/

theorem hostLoad_readByte_image (s : State) {image : List Byte} {k : Nat} (h : k < image.length) :
    (s.hostLoad image).mem.readByte k = image[k] := by
  rw [State.hostLoad, Memory.readByte_writeBytes, dif_pos ⟨k.zero_le, h⟩]
  rfl

theorem hostLoad_readByte_beyond (s : State) {image : List Byte} {k : Nat} (h : image.length ≤ k) :
    (s.hostLoad image).mem.readByte k = s.mem.readByte k := by
  rw [State.hostLoad, Memory.readByte_writeBytes, dif_neg (by omega)]

/-- Settles O16, from the byte read after a copy. -/
theorem loadCopiesTheImage : Obligations.LoadCopiesTheImage := by
  intro s image hp
  have hcommand : command (.load image) s = commandLoad image s := betweenCycles_of_ne_fetched hp _
  refine ⟨fun hfits => ?_, fun hlong => ?_⟩
  · exact ⟨s.hostLoad image, hcommand.trans (if_pos hfits), fun _ => hostLoad_readByte_image s,
      fun _ => hostLoad_readByte_beyond s, fun _ _ => rfl, ⟨rfl, rfl⟩, ⟨rfl, rfl, rfl⟩⟩
  · exact hcommand.trans (if_neg (Nat.not_le.2 hlong))

end Sys2Proof.Machine
end

section
/-! SUPPORT. The faults (20_memory.md R54, 60_exceptions.md R203, R204): an instruction faults exactly at an access of its
own that has no second byte, a step at the fetch or at such an access. -/

namespace Sys2Proof.Machine

variable {s : State} {f : Fault} {k : Access} {a a' : Word}

/-- One of the accesses has no second byte, and the fault names its kind (log 13). -/
def RefusedAccess (s : State) (accesses : List (Access × Word)) (f : Fault) : Prop :=
  ∃ x ∈ accesses, ¬s.wordInRange x.2 ∧ f = .wordAtTop x.1

theorem refusedAccess_nil : ¬RefusedAccess s [] f := by simp [RefusedAccess]

theorem refusedAccess_single : RefusedAccess s [(k, a)] f ↔ ¬s.wordInRange a ∧ f = .wordAtTop k := by
  simp [RefusedAccess]

/-- Two accesses of one kind. -/
theorem refusedAccess_pair :
    RefusedAccess s [(k, a), (k, a')] f ↔ ¬(s.wordInRange a ∧ s.wordInRange a') ∧ f = .wordAtTop k := by
  rw [RefusedAccess, not_and_or, or_and_right]
  simp

/-- A refused access is one at 0xFFFF under `EDGE_WORD = fault`. -/
theorem refusedAccess_iff {accesses : List (Access × Word)} : RefusedAccess s accesses f ↔
    s.params.edgeWord = .fault ∧ ∃ k, f = .wordAtTop k ∧ (k, 0xFFFF#16) ∈ accesses := by
  constructor
  · rintro ⟨⟨k, a⟩, hx, hr, rfl⟩
    obtain ⟨he, rfl⟩ := not_wordInRange_iff.1 hr
    exact ⟨he, k, rfl, hx⟩
  · rintro ⟨he, k, rfl, hx⟩
    exact ⟨_, hx, not_wordInRange_iff.2 ⟨he, rfl⟩, rfl⟩

/-! ### One instruction -/

/-- An outcome that completes exactly under `P`, and otherwise stops with one fault. -/
theorem fault_iff_of_cases {P : Prop} {r : Result} {g : Fault} (hok : P → ∃ t, r = .next t) (hno : ¬P → r = .fault g) :
    r = .fault f ↔ ¬P ∧ f = g := by
  by_cases hP : P
  · obtain ⟨t, rfl⟩ := hok hP
    simp [hP]
  · rw [hno hP]
    simp [hP, eq_comm]

theorem loadFrom_fault_iff {fld : RegField} : loadFrom s fld a = .fault f ↔ RefusedAccess s [(.load, a)] f :=
  (fault_iff_of_cases (fun h => ⟨_, loadFrom_inRange h⟩) loadFrom_outOfRange).trans refusedAccess_single.symm

theorem storeTo_fault_iff {fld : RegField} : storeTo s fld a = .fault f ↔ RefusedAccess s [(.store, a)] f :=
  (fault_iff_of_cases (fun h => ⟨_, storeTo_inRange h⟩) storeTo_outOfRange).trans refusedAccess_single.symm

theorem execRet_fault_iff :
    execRet s = .fault f ↔ RefusedAccess s [(.pop, s.reg .bp), (.pop, s.reg .bp - 2#16)] f :=
  (fault_iff_of_cases (fun h => ⟨_, execRet_inRange h.1 h.2⟩) execRet_outOfRange).trans refusedAccess_pair.symm

theorem execCall_fault_iff {t12 : BitVec 12} :
    execCall t12 s = .fault f ↔ RefusedAccess s [(.push, s.reg .sp), (.push, s.reg .sp + 2#16)] f :=
  (fault_iff_of_cases (fun h => ⟨_, execCall_inRange h.1 h.2⟩) execCall_outOfRange).trans refusedAccess_pair.symm

theorem next_ne_fault (t : State) (f : Fault) : (.next t : Result) ≠ .fault f := nofun

theorem arithRegister_ne_fault (op : Word → Word → Word) (regA regB : RegField) (s : State) (f : Fault) :
    arithRegister op regA regB s ≠ .fault f := by
  unfold arithRegister
  cases s.params.legacyRegB <;> exact next_ne_fault _ f

/-- An instruction faults exactly where one of its word accesses is refused. -/
theorem exec_fault_iff (i : Instr) : exec i s = .fault f ↔ RefusedAccess s (wordAccesses s i) f := by
  cases i with
  | ret => exact execRet_fault_iff
  | call => exact execCall_fault_iff
  | loadAbsolute | loadIndirect | loadIndexed => exact loadFrom_fault_iff
  | storeAbsolute | storeIndirect | storeIndexed => exact storeTo_fault_iff
  | addRegister | subtractRegister => exact iff_of_false (arithRegister_ne_fault _ _ _ s f) refusedAccess_nil
  | halt | nop | error | illegalFlow100 | illegalFlow101 | illegalFlow110 | illegalFlow111
  | illegalTransfer111 | illegalManipulate101 | illegalManipulate110
  | loadImmediate | negate | addImmediate | subtractImmediate | move | jump | jumpIfZero | jumpIfNegative =>
    exact iff_of_false (next_ne_fault _ f) refusedAccess_nil

/-! ### One step -/

/-- Between cycles and not halted, with a word to fetch, the step is the fetched instruction on the fetched state. -/
theorem step_eq_exec (hp : s.phase = .ready) (hh : s.halted = false) (hr : s.wordInRange (s.reg .pc)) :
    step s = exec (decode (s.wordAt (s.reg .pc))) s.fetched := by
  simp [step, stepFrom, hp, cycle, hh, fetch_inRange hh hr, execute]

/-- Between cycles and not halted, without a word to fetch, the step is the fetch's fault (R204). -/
theorem step_fetch_fault (hp : s.phase = .ready) (hh : s.halted = false) (hr : ¬s.wordInRange (s.reg .pc)) :
    step s = .fault (.wordAtTop .fetch) := by
  simp [step, stepFrom, hp, cycle, hh, fetch_outOfRange hh hr]

/-- Settles O28, by whether the fetch has its second byte. -/
theorem stepFaultsExactlyAtTheTopAddress : Obligations.StepFaultsExactlyAtTheTopAddress := by
  intro s f hp hh
  by_cases hr : s.wordInRange (s.reg .pc)
  · rw [step_eq_exec hp hh hr, exec_fault_iff, refusedAccess_iff, fetched_params]
    refine and_congr_right fun he => ?_
    have hpc : s.reg .pc ≠ 0xFFFF#16 := fun htop => not_wordInRange_iff.2 ⟨he, htop⟩ hr
    simp only [hpc, false_and, false_or, ne_eq, not_false_eq_true, true_and]
  · obtain ⟨he, hpc⟩ := not_wordInRange_iff.1 hr
    rw [step_fetch_fault hp hh hr]
    simp only [he, hpc, ne_eq, not_true_eq_false, false_and, or_false, true_and, Host.Outcome.fault.injEq]
    exact eq_comm

end Sys2Proof.Machine
end

section
/-! SUPPORT. A word stored at the next instruction's address is what the next fetch reads (20_memory.md R65,
70_reset_and_hazards.md R237). -/

namespace Sys2Proof.Machine

variable {s t : State} {t12 : BitVec 12}

/-- A fetch that completes answers the word at PC in IR, and PC two bytes on. -/
theorem fetch_reads (hh : s.halted = false) (hr : s.wordInRange (s.reg .pc)) :
    ∃ u, fetch s = .ok u ∧ u.reg .ir = s.wordAt (s.reg .pc) ∧ u.reg .pc = s.reg .pc + 2#16 :=
  ⟨_, fetch_inRange hh hr, fetched_ir, fetched_pc⟩

/-- A store at PC is what the fetch after it reads. -/
theorem storeTo_pc_then_fetch (hh : s.halted = false) (hr : s.wordInRange (s.reg .pc)) (f : RegField) :
    ∃ t u, storeTo s f (s.reg .pc) = .next t ∧ fetch t = .ok u ∧ u.reg .ir = s.fieldReg f ∧
      u.reg .pc = s.reg .pc + 2#16 := by
  obtain ⟨u, hu, hir, hpc⟩ := fetch_reads (s := s.putWord (s.reg .pc) (s.fieldReg f)) hh hr
  rw [putWord_reg] at hir hpc
  exact ⟨_, u, storeTo_inRange hr, hu, hir.trans putWord_wordAt_same, hpc⟩

/-- What a call that completes leaves for the next fetch: PC at the target, the return address at the old SP, the old
BP two bytes on. -/
theorem execCall_frame (h : execCall t12 s = .next t) :
    t.reg .pc = t12.zeroExtend 16 ∧ t.wordAt (s.reg .sp) = s.reg .pc ∧ t.wordAt (s.reg .sp + 2#16) = s.reg .bp := by
  obtain ⟨-, -, rfl⟩ := execCall_next h
  simp [putWord_add_two_wordAt]

/-- The word at a call's target is what the fetch after the call reads. -/
theorem execCall_then_fetch (hh : s.halted = false) (hr : s.wordInRange (s.reg .sp))
    (hr' : s.wordInRange (s.reg .sp + 2#16)) (ht : s.wordInRange (t12.zeroExtend 16)) :
    ∃ t u, execCall t12 s = .next t ∧ t.wordAt (s.reg .sp) = s.reg .pc ∧
      t.wordAt (s.reg .sp + 2#16) = s.reg .bp ∧ fetch t = .ok u ∧ u.reg .ir = t.wordAt (t12.zeroExtend 16) ∧
      u.reg .pc = t12.zeroExtend 16 + 2#16 := by
  have hcall := execCall_inRange (t12 := t12) hr hr'
  obtain ⟨hpc, hret, hbp⟩ := execCall_frame hcall
  obtain ⟨hhalted, -⟩ := execCall_flagsKept hcall
  obtain ⟨hparams, -, -⟩ := execCall_ownKept hcall
  obtain ⟨u, hu, hir, hupc⟩ := fetch_reads (hhalted.trans hh) (by rwa [State.wordInRange, hpc, hparams])
  rw [hpc] at hir hupc
  exact ⟨_, u, hcall, hret, hbp, hu, hir, hupc⟩

/-- A 12-bit target is far below the top address. -/
theorem target_toNat_lt (t12 : BitVec 12) : (t12.zeroExtend 16 : Word).toNat < 0x1000 := by
  have := t12.isLt
  simp only [BitVec.truncate_eq_setWidth, BitVec.toNat_setWidth]
  omega

theorem target_inRange (s : State) (t12 : BitVec 12) : s.wordInRange (t12.zeroExtend 16) := by
  have := target_toNat_lt t12
  exact wordInRange_of_ne_top (by bv_omega)

theorem target_add_two_inRange (s : State) (t12 : BitVec 12) : s.wordInRange (t12.zeroExtend 16 + 2#16) := by
  have := target_toNat_lt t12
  exact wordInRange_of_ne_top (by bv_omega)

/-- Settles O34: each store is one at PC, and each of call's two pushes stands at the target. -/
theorem storedWordIsWhatTheNextFetchReads : Obligations.StoredWordIsWhatTheNextFetchReads := by
  intro s a b addr8 off5 t12 hh
  refine ⟨fun haddr => ?absolute, fun haddr hr => ?indirect, fun haddr hr => ?indexed, fun hsp => ?returnAddress,
    fun hsp hr => ?basePointer⟩
  case absolute =>
    change zextAddr8 addr8 = s.reg .pc at haddr
    have hr := zextAddr8_inRange s addr8
    rw [haddr] at hr
    rw [exec, execStoreAbsolute, haddr]
    exact storeTo_pc_then_fetch hh hr a
  case indirect =>
    rw [exec, execStoreIndirect, haddr]
    exact storeTo_pc_then_fetch hh hr a
  case indexed =>
    rw [exec, execStoreIndexed, haddr]
    exact storeTo_pc_then_fetch hh hr a
  case returnAddress =>
    have ht := target_inRange s t12
    have ht' := target_add_two_inRange s t12
    rw [← hsp] at ht ht'
    obtain ⟨t, u, hcall, hret, -, hu, hir, hpc⟩ := execCall_then_fetch hh ht ht' (target_inRange s t12)
    rw [← hsp] at hir hpc
    exact ⟨t, u, hcall, hu, hir.trans hret, hpc⟩
  case basePointer =>
    have ht := target_inRange s t12
    rw [← hsp] at ht
    obtain ⟨t, u, hcall, -, hbp, hu, hir, hpc⟩ := execCall_then_fetch hh hr ht (target_inRange s t12)
    rw [← hsp] at hir hpc
    exact ⟨t, u, hcall, hu, hir.trans hbp, hpc.trans (BitVec.add_assoc _ _ _)⟩

end Sys2Proof.Machine
end

section
/-! SUPPORT. The encoder's formats (30_encoding.md R82 to R87): what each field of an encoded word holds, which row its
top bits select, and the word as R96's shift-and-or formula. -/

namespace Sys2Proof

section Formats
variable (sub3 : BitVec 3) (sub2 : BitVec 2) (a b : RegField) (imm8 : BitVec 8) (off5 : BitVec 5) (t12 : BitVec 12)

/-! ### The operand fields of an encoded word -/

theorem fields_encodeTI : regAField (encodeTI sub3 a imm8) = a ∧ imm8Field (encodeTI sub3 a imm8) = imm8 := by
  have := a.isLt; have := imm8.isLt
  simp only [← BitVec.toNat_inj, regAField_toNat, imm8Field_toNat, encodeTI_toNat]
  omega

theorem fields_encodeTR : regAField (encodeTR sub3 a b off5) = a ∧ regBField (encodeTR sub3 a b off5) = b ∧
    off5Field (encodeTR sub3 a b off5) = off5 := by
  have := a.isLt; have := b.isLt; have := off5.isLt
  simp only [← BitVec.toNat_inj, regAField_toNat, regBField_toNat, off5Field_toNat, encodeTR_toNat]
  omega

theorem fields_encodeMR : regAField (encodeMR sub3 a b) = a ∧ regBField (encodeMR sub3 a b) = b := by
  have := a.isLt; have := b.isLt
  simp only [← BitVec.toNat_inj, regAField_toNat, regBField_toNat, encodeMR_toNat]
  omega

theorem fields_encodeMI : regAField (encodeMI sub3 a imm8) = a ∧ imm8Field (encodeMI sub3 a imm8) = imm8 := by
  have := a.isLt; have := imm8.isLt
  simp only [← BitVec.toNat_inj, regAField_toNat, imm8Field_toNat, encodeMI_toNat]
  omega

theorem field_encodeJ : t12Field (encodeJ sub2 t12) = t12 := by
  have := t12.isLt
  simp only [← BitVec.toNat_inj, t12Field_toNat, encodeJ_toNat]
  omega

/-! ### The class and sub-opcode of an encoded word: its row's match value is the encoding with every operand 0 -/

theorem encodeTI_and_mask : encodeTI sub3 a imm8 &&& 0xF800#16 = encodeTI sub3 0#3 0#8 := by
  have := a.isLt; have := imm8.isLt
  simp only [← BitVec.toNat_inj, and_maskF800_toNat, encodeTI_toNat, BitVec.toNat_zero]
  omega

theorem encodeTR_and_mask : encodeTR sub3 a b off5 &&& 0xF800#16 = encodeTR sub3 0#3 0#3 0#5 := by
  have := a.isLt; have := b.isLt; have := off5.isLt
  simp only [← BitVec.toNat_inj, and_maskF800_toNat, encodeTR_toNat, BitVec.toNat_zero]
  omega

theorem encodeMR_and_mask : encodeMR sub3 a b &&& 0xF800#16 = encodeMR sub3 0#3 0#3 := by
  have := a.isLt; have := b.isLt
  simp only [← BitVec.toNat_inj, and_maskF800_toNat, encodeMR_toNat, BitVec.toNat_zero]
  omega

theorem encodeMI_and_mask : encodeMI sub3 a imm8 &&& 0xF800#16 = encodeMI sub3 0#3 0#8 := by
  have := a.isLt; have := imm8.isLt
  simp only [← BitVec.toNat_inj, and_maskF800_toNat, encodeMI_toNat, BitVec.toNat_zero]
  omega

theorem encodeJ_and_mask : encodeJ sub2 t12 &&& 0xF000#16 = encodeJ sub2 0#12 := by
  have := t12.isLt
  simp only [← BitVec.toNat_inj, and_maskF000_toNat, encodeJ_toNat, BitVec.toNat_zero]
  omega

/-! ### The formats as R96's formulas -/

/-- A concatenation inside a wider (or narrower) vector: the first part shifted up, the second or'ed in. -/
theorem setWidth_append_eq {n k m : Nat} (x : BitVec n) (y : BitVec k) :
    (x ++ y).setWidth m = x.setWidth m <<< k ||| y.setWidth m := by
  ext i hi
  by_cases h : i < k
  · simp [BitVec.getLsbD_append, h]
  · have : y.getLsbD i = false := BitVec.getLsbD_of_ge _ _ (by omega)
    simp [BitVec.getLsbD_append, h, this]

theorem encodeTI_eq_formulaTI : encodeTI sub3 a imm8 = Machine.formulaTI (sub3.zeroExtend 16) a imm8 := by
  rw [← BitVec.setWidth_eq (encodeTI sub3 a imm8), encodeTI]
  simp only [setWidth_append_eq, BitVec.shiftLeft_or_distrib, ← BitVec.shiftLeft_add]
  rfl

theorem encodeTR_eq_formulaTR : encodeTR sub3 a b off5 = Machine.formulaTR (sub3.zeroExtend 16) a b off5 := by
  rw [← BitVec.setWidth_eq (encodeTR sub3 a b off5), encodeTR]
  simp only [setWidth_append_eq, BitVec.shiftLeft_or_distrib, ← BitVec.shiftLeft_add]
  rfl

theorem encodeMR_eq_formulaMR : encodeMR sub3 a b = Machine.formulaMR (sub3.zeroExtend 16) a b := by
  rw [← BitVec.setWidth_eq (encodeMR sub3 a b), encodeMR]
  simp only [setWidth_append_eq, BitVec.shiftLeft_or_distrib, ← BitVec.shiftLeft_add]
  exact BitVec.or_zero

theorem encodeMI_eq_formulaMI : encodeMI sub3 a imm8 = Machine.formulaMI (sub3.zeroExtend 16) a imm8 := by
  rw [← BitVec.setWidth_eq (encodeMI sub3 a imm8), encodeMI]
  simp only [setWidth_append_eq, BitVec.shiftLeft_or_distrib, ← BitVec.shiftLeft_add]
  rfl

theorem encodeJ_eq_formulaJ : encodeJ sub2 t12 = Machine.formulaJ (sub2.zeroExtend 16) t12 := by
  rw [← BitVec.setWidth_eq (encodeJ sub2 t12), encodeJ]
  simp only [setWidth_append_eq, BitVec.shiftLeft_or_distrib, ← BitVec.shiftLeft_add]
  rfl

end Formats
end Sys2Proof
end

section
/-! SUPPORT. The rows of the opcode map (30_encoding.md R95): what each row's words decode to, and what the encoder
makes of a row's fields. -/

namespace Sys2Proof
open Machine

/-! ### Each row's words decode to that row's instruction (R95, R120) -/

/-- A row with the five-bit mask decodes as its opcode number does. -/
theorem rowDecodes_of_opcode {bits : Word} {f : Word → Instr} (k : Nat) (hk : bits.toNat = k * 2048)
    (hf : ∀ w : Word, w.toNat / 2048 = k → decode w = f w) : RowDecodes bits 0xF800#16 f := by
  intro w hw
  rw [← BitVec.toNat_inj, and_maskF800_toNat] at hw
  exact hf w (by omega)

/-- A jump row, whose mask has four bits, is two opcode numbers. -/
theorem rowDecodes_of_two_opcodes {bits : Word} {f : Word → Instr} (k : Nat) (hk : bits.toNat = k * 2048)
    (heven : k % 2 = 0) (hf : ∀ w : Word, w.toNat / 2048 = k ∨ w.toNat / 2048 = k + 1 → decode w = f w) :
    RowDecodes bits 0xF000#16 f := by
  intro w hw
  rw [← BitVec.toNat_inj, and_maskF000_toNat] at hw
  exact hf w (by omega)

theorem rowDecodes_halt : RowDecodes 0x0000#16 0xF800#16 (fun _ => .halt) :=
  rowDecodes_of_opcode 0 rfl fun w h => by simp only [decode_eq_byOpcode, h]
theorem rowDecodes_nop : RowDecodes 0x0800#16 0xF800#16 (fun _ => .nop) :=
  rowDecodes_of_opcode 1 rfl fun w h => by simp only [decode_eq_byOpcode, h]
theorem rowDecodes_ret : RowDecodes 0x1000#16 0xF800#16 (fun _ => .ret) :=
  rowDecodes_of_opcode 2 rfl fun w h => by simp only [decode_eq_byOpcode, h]
theorem rowDecodes_error : RowDecodes 0x1800#16 0xF800#16 (fun _ => .error) :=
  rowDecodes_of_opcode 3 rfl fun w h => by simp only [decode_eq_byOpcode, h]
theorem rowDecodes_illegalFlow100 : RowDecodes 0x2000#16 0xF800#16 (fun _ => .illegalFlow100) :=
  rowDecodes_of_opcode 4 rfl fun w h => by simp only [decode_eq_byOpcode, h]
theorem rowDecodes_illegalFlow101 : RowDecodes 0x2800#16 0xF800#16 (fun _ => .illegalFlow101) :=
  rowDecodes_of_opcode 5 rfl fun w h => by simp only [decode_eq_byOpcode, h]
theorem rowDecodes_illegalFlow110 : RowDecodes 0x3000#16 0xF800#16 (fun _ => .illegalFlow110) :=
  rowDecodes_of_opcode 6 rfl fun w h => by simp only [decode_eq_byOpcode, h]
theorem rowDecodes_illegalFlow111 : RowDecodes 0x3800#16 0xF800#16 (fun _ => .illegalFlow111) :=
  rowDecodes_of_opcode 7 rfl fun w h => by simp only [decode_eq_byOpcode, h]
theorem rowDecodes_loadImmediate :
    RowDecodes 0x4000#16 0xF800#16 (fun w => .loadImmediate (regAField w) (imm8Field w)) :=
  rowDecodes_of_opcode 8 rfl fun w h => by simp only [decode_eq_byOpcode, h]
theorem rowDecodes_loadAbsolute :
    RowDecodes 0x4800#16 0xF800#16 (fun w => .loadAbsolute (regAField w) (imm8Field w)) :=
  rowDecodes_of_opcode 9 rfl fun w h => by simp only [decode_eq_byOpcode, h]
theorem rowDecodes_loadIndirect :
    RowDecodes 0x5000#16 0xF800#16 (fun w => .loadIndirect (regAField w) (regBField w)) :=
  rowDecodes_of_opcode 10 rfl fun w h => by simp only [decode_eq_byOpcode, h]
theorem rowDecodes_loadIndexed :
    RowDecodes 0x5800#16 0xF800#16 (fun w => .loadIndexed (regAField w) (regBField w) (off5Field w)) :=
  rowDecodes_of_opcode 11 rfl fun w h => by simp only [decode_eq_byOpcode, h]
theorem rowDecodes_storeAbsolute :
    RowDecodes 0x6000#16 0xF800#16 (fun w => .storeAbsolute (regAField w) (imm8Field w)) :=
  rowDecodes_of_opcode 12 rfl fun w h => by simp only [decode_eq_byOpcode, h]
theorem rowDecodes_storeIndirect :
    RowDecodes 0x6800#16 0xF800#16 (fun w => .storeIndirect (regAField w) (regBField w)) :=
  rowDecodes_of_opcode 13 rfl fun w h => by simp only [decode_eq_byOpcode, h]
theorem rowDecodes_storeIndexed :
    RowDecodes 0x7000#16 0xF800#16 (fun w => .storeIndexed (regAField w) (regBField w) (off5Field w)) :=
  rowDecodes_of_opcode 14 rfl fun w h => by simp only [decode_eq_byOpcode, h]
theorem rowDecodes_illegalTransfer111 : RowDecodes 0x7800#16 0xF800#16 (fun _ => .illegalTransfer111) :=
  rowDecodes_of_opcode 15 rfl fun w h => by simp only [decode_eq_byOpcode, h]
theorem rowDecodes_negate : RowDecodes 0x8000#16 0xF800#16 (fun w => .negate (regAField w)) :=
  rowDecodes_of_opcode 16 rfl fun w h => by simp only [decode_eq_byOpcode, h]
theorem rowDecodes_addRegister :
    RowDecodes 0x8800#16 0xF800#16 (fun w => .addRegister (regAField w) (regBField w)) :=
  rowDecodes_of_opcode 17 rfl fun w h => by simp only [decode_eq_byOpcode, h]
theorem rowDecodes_addImmediate :
    RowDecodes 0x9000#16 0xF800#16 (fun w => .addImmediate (regAField w) (imm8Field w)) :=
  rowDecodes_of_opcode 18 rfl fun w h => by simp only [decode_eq_byOpcode, h]
theorem rowDecodes_subtractRegister :
    RowDecodes 0x9800#16 0xF800#16 (fun w => .subtractRegister (regAField w) (regBField w)) :=
  rowDecodes_of_opcode 19 rfl fun w h => by simp only [decode_eq_byOpcode, h]
theorem rowDecodes_subtractImmediate :
    RowDecodes 0xA000#16 0xF800#16 (fun w => .subtractImmediate (regAField w) (imm8Field w)) :=
  rowDecodes_of_opcode 20 rfl fun w h => by simp only [decode_eq_byOpcode, h]
theorem rowDecodes_illegalManipulate101 : RowDecodes 0xA800#16 0xF800#16 (fun _ => .illegalManipulate101) :=
  rowDecodes_of_opcode 21 rfl fun w h => by simp only [decode_eq_byOpcode, h]
theorem rowDecodes_illegalManipulate110 : RowDecodes 0xB000#16 0xF800#16 (fun _ => .illegalManipulate110) :=
  rowDecodes_of_opcode 22 rfl fun w h => by simp only [decode_eq_byOpcode, h]
theorem rowDecodes_move : RowDecodes 0xB800#16 0xF800#16 (fun w => .move (regAField w) (regBField w)) :=
  rowDecodes_of_opcode 23 rfl fun w h => by simp only [decode_eq_byOpcode, h]
theorem rowDecodes_jump : RowDecodes 0xC000#16 0xF000#16 (fun w => .jump (t12Field w)) :=
  rowDecodes_of_two_opcodes 24 rfl rfl fun w h => by obtain h | h := h <;> simp only [decode_eq_byOpcode, h]
theorem rowDecodes_jumpIfZero : RowDecodes 0xD000#16 0xF000#16 (fun w => .jumpIfZero (t12Field w)) :=
  rowDecodes_of_two_opcodes 26 rfl rfl fun w h => by obtain h | h := h <;> simp only [decode_eq_byOpcode, h]
theorem rowDecodes_jumpIfNegative :
    RowDecodes 0xE000#16 0xF000#16 (fun w => .jumpIfNegative (t12Field w)) :=
  rowDecodes_of_two_opcodes 28 rfl rfl fun w h => by obtain h | h := h <;> simp only [decode_eq_byOpcode, h]
theorem rowDecodes_call : RowDecodes 0xF000#16 0xF000#16 (fun w => .call (t12Field w)) :=
  rowDecodes_of_two_opcodes 30 rfl rfl fun w h => by obtain h | h := h <;> simp only [decode_eq_byOpcode, h]

/-! ### A word rebuilt from its own fields: its used bits (R88) -/

theorem and_maskFF00_toNat (w : Word) : (w &&& 0xFF00#16).toNat = w.toNat / 256 * 256 := by
  have : w &&& 0xFF00#16 = (w >>> 8) <<< 8 := by ext i hi; interval_cases i <;> simp
  rw [this]; exact clearLow_toNat w 8

theorem and_maskFFE0_toNat (w : Word) : (w &&& 0xFFE0#16).toNat = w.toNat / 32 * 32 := by
  have : w &&& 0xFFE0#16 = (w >>> 5) <<< 5 := by ext i hi; interval_cases i <;> simp
  rw [this]; exact clearLow_toNat w 5

theorem and_maskFFFF (w : Word) : w &&& 0xFFFF#16 = w := BitVec.and_allOnes

section Rebuild
variable {w : Word} (sub3 : BitVec 3) (sub2 : BitVec 2)

theorem encodeTI_fields (h : w &&& 0xF800#16 = encodeTI sub3 0#3 0#8) :
    encodeTI sub3 (regAField w) (imm8Field w) = w &&& 0xFFFF#16 := by
  simp only [← BitVec.toNat_inj, and_maskF800_toNat, and_maskFFFF, encodeTI_toNat, regAField_toNat, imm8Field_toNat,
    BitVec.toNat_zero] at h ⊢
  omega

theorem encodeTR_fields (h : w &&& 0xF800#16 = encodeTR sub3 0#3 0#3 0#5) :
    encodeTR sub3 (regAField w) (regBField w) (off5Field w) = w &&& 0xFFFF#16 := by
  simp only [← BitVec.toNat_inj, and_maskF800_toNat, and_maskFFFF, encodeTR_toNat, regAField_toNat, regBField_toNat,
    off5Field_toNat, BitVec.toNat_zero] at h ⊢
  omega

theorem encodeTR_registers (h : w &&& 0xF800#16 = encodeTR sub3 0#3 0#3 0#5) :
    encodeTR sub3 (regAField w) (regBField w) 0#5 = w &&& 0xFFE0#16 := by
  simp only [← BitVec.toNat_inj, and_maskF800_toNat, and_maskFFE0_toNat, encodeTR_toNat, regAField_toNat,
    regBField_toNat, BitVec.toNat_zero] at h ⊢
  omega

theorem encodeMR_registers (h : w &&& 0xF800#16 = encodeMR sub3 0#3 0#3) :
    encodeMR sub3 (regAField w) (regBField w) = w &&& 0xFFE0#16 := by
  simp only [← BitVec.toNat_inj, and_maskF800_toNat, and_maskFFE0_toNat, encodeMR_toNat, regAField_toNat,
    regBField_toNat, BitVec.toNat_zero] at h ⊢
  omega

theorem encodeMR_regA (h : w &&& 0xF800#16 = encodeMR sub3 0#3 0#3) :
    encodeMR sub3 (regAField w) 0#3 = w &&& 0xFF00#16 := by
  simp only [← BitVec.toNat_inj, and_maskF800_toNat, and_maskFF00_toNat, encodeMR_toNat, regAField_toNat,
    BitVec.toNat_zero] at h ⊢
  omega

theorem encodeMI_fields (h : w &&& 0xF800#16 = encodeMI sub3 0#3 0#8) :
    encodeMI sub3 (regAField w) (imm8Field w) = w &&& 0xFFFF#16 := by
  simp only [← BitVec.toNat_inj, and_maskF800_toNat, and_maskFFFF, encodeMI_toNat, regAField_toNat, imm8Field_toNat,
    BitVec.toNat_zero] at h ⊢
  omega

theorem encodeJ_field (h : w &&& 0xF000#16 = encodeJ sub2 0#12) : encodeJ sub2 (t12Field w) = w &&& 0xFFFF#16 := by
  simp only [← BitVec.toNat_inj, and_maskF000_toNat, and_maskFFFF, encodeJ_toNat, t12Field_toNat,
    BitVec.toNat_zero] at h ⊢
  omega

end Rebuild

end Sys2Proof
end

section
/-! SUPPORT. The encoding family (30_encoding.md): decode and encode against each other and against the opcode map. -/

namespace Sys2Proof
open Machine

/-! ### Decode after encode -/

/-- Settles O1: the encoded word fits the instruction's row, and the row's fields are the operands. -/
theorem decodeOfEncodeIsTheInstruction : Obligations.DecodeOfEncodeIsTheInstruction := by
  intro i
  cases i with
  | halt => exact rowDecodes_halt _ rfl
  | nop => exact rowDecodes_nop _ rfl
  | ret => exact rowDecodes_ret _ rfl
  | error => exact rowDecodes_error _ rfl
  | illegalFlow100 => exact rowDecodes_illegalFlow100 _ rfl
  | illegalFlow101 => exact rowDecodes_illegalFlow101 _ rfl
  | illegalFlow110 => exact rowDecodes_illegalFlow110 _ rfl
  | illegalFlow111 => exact rowDecodes_illegalFlow111 _ rfl
  | loadImmediate a v =>
    rw [encode, rowDecodes_loadImmediate _ (encodeTI_and_mask ..)]
    simp only [fields_encodeTI]
  | loadAbsolute a v =>
    rw [encode, rowDecodes_loadAbsolute _ (encodeTI_and_mask ..)]
    simp only [fields_encodeTI]
  | loadIndirect a b =>
    rw [encode, rowDecodes_loadIndirect _ (encodeTR_and_mask ..)]
    simp only [fields_encodeTR]
  | loadIndexed a b off =>
    rw [encode, rowDecodes_loadIndexed _ (encodeTR_and_mask ..)]
    simp only [fields_encodeTR]
  | storeAbsolute a v =>
    rw [encode, rowDecodes_storeAbsolute _ (encodeTI_and_mask ..)]
    simp only [fields_encodeTI]
  | storeIndirect a b =>
    rw [encode, rowDecodes_storeIndirect _ (encodeTR_and_mask ..)]
    simp only [fields_encodeTR]
  | storeIndexed a b off =>
    rw [encode, rowDecodes_storeIndexed _ (encodeTR_and_mask ..)]
    simp only [fields_encodeTR]
  | illegalTransfer111 => exact rowDecodes_illegalTransfer111 _ rfl
  | negate a =>
    rw [encode, rowDecodes_negate _ (encodeMR_and_mask ..)]
    simp only [fields_encodeMR]
  | addRegister a b =>
    rw [encode, rowDecodes_addRegister _ (encodeMR_and_mask ..)]
    simp only [fields_encodeMR]
  | addImmediate a v =>
    rw [encode, rowDecodes_addImmediate _ (encodeMI_and_mask ..)]
    simp only [fields_encodeMI]
  | subtractRegister a b =>
    rw [encode, rowDecodes_subtractRegister _ (encodeMR_and_mask ..)]
    simp only [fields_encodeMR]
  | subtractImmediate a v =>
    rw [encode, rowDecodes_subtractImmediate _ (encodeMI_and_mask ..)]
    simp only [fields_encodeMI]
  | illegalManipulate101 => exact rowDecodes_illegalManipulate101 _ rfl
  | illegalManipulate110 => exact rowDecodes_illegalManipulate110 _ rfl
  | move a b =>
    rw [encode, rowDecodes_move _ (encodeMR_and_mask ..)]
    simp only [fields_encodeMR]
  | jump t =>
    rw [encode, rowDecodes_jump _ (encodeJ_and_mask ..)]
    simp only [field_encodeJ]
  | jumpIfZero t =>
    rw [encode, rowDecodes_jumpIfZero _ (encodeJ_and_mask ..)]
    simp only [field_encodeJ]
  | jumpIfNegative t =>
    rw [encode, rowDecodes_jumpIfNegative _ (encodeJ_and_mask ..)]
    simp only [field_encodeJ]
  | call t =>
    rw [encode, rowDecodes_call _ (encodeJ_and_mask ..)]
    simp only [field_encodeJ]

/-! ### Encode after decode -/

/-- Every word of the row decodes to the row's mnemonic and encodes back to the word's used bits. -/
def OpcodeRow.KeepsUsedBits (r : OpcodeRow) : Prop :=
  ∀ w : Word, r.selects w = true → (decode w).mnemonic = r.mnemonic ∧ encode (decode w) = w &&& r.used

/-- A row keeps its used bits if the instruction its words decode to does. -/
theorem OpcodeRow.KeepsUsedBits.of_rowDecodes {mn : String} {bits mask used : Word} {f : Word → Instr}
    (hrow : RowDecodes bits mask f) (henc : ∀ w, w &&& mask = bits → encode (f w) = w &&& used)
    (hmn : ∀ w, (f w).mnemonic = mn := by intro; rfl) : (OpcodeRow.mk mn bits mask used).KeepsUsedBits := by
  intro w hw
  have hw : w &&& mask = bits := beq_iff_eq.1 hw
  rw [hrow w hw]
  exact ⟨hmn w, henc w hw⟩

/-- Row by row in the map's order: an illegal row's match value is its used bits, every other row rebuilds the word
from its operand fields. -/
theorem opcodeMap_keepsUsedBits : ∀ r ∈ opcodeMap, r.KeepsUsedBits := by
  rw [← List.forall_iff_forall_mem]
  exact ⟨.of_rowDecodes rowDecodes_halt (fun _ h => h.symm),
    .of_rowDecodes rowDecodes_nop (fun _ h => h.symm),
    .of_rowDecodes rowDecodes_ret (fun _ h => h.symm),
    .of_rowDecodes rowDecodes_error (fun _ h => h.symm),
    .of_rowDecodes rowDecodes_illegalFlow100 (fun _ h => h.symm),
    .of_rowDecodes rowDecodes_illegalFlow101 (fun _ h => h.symm),
    .of_rowDecodes rowDecodes_illegalFlow110 (fun _ h => h.symm),
    .of_rowDecodes rowDecodes_illegalFlow111 (fun _ h => h.symm),
    .of_rowDecodes rowDecodes_loadImmediate (fun _ => encodeTI_fields 0),
    .of_rowDecodes rowDecodes_loadAbsolute (fun _ => encodeTI_fields 1),
    .of_rowDecodes rowDecodes_loadIndirect (fun _ => encodeTR_registers 2),
    .of_rowDecodes rowDecodes_loadIndexed (fun _ => encodeTR_fields 3),
    .of_rowDecodes rowDecodes_storeAbsolute (fun _ => encodeTI_fields 4),
    .of_rowDecodes rowDecodes_storeIndirect (fun _ => encodeTR_registers 5),
    .of_rowDecodes rowDecodes_storeIndexed (fun _ => encodeTR_fields 6),
    .of_rowDecodes rowDecodes_illegalTransfer111 (fun _ h => h.symm),
    .of_rowDecodes rowDecodes_negate (fun _ => encodeMR_regA 0),
    .of_rowDecodes rowDecodes_addRegister (fun _ => encodeMR_registers 1),
    .of_rowDecodes rowDecodes_addImmediate (fun _ => encodeMI_fields 2),
    .of_rowDecodes rowDecodes_subtractRegister (fun _ => encodeMR_registers 3),
    .of_rowDecodes rowDecodes_subtractImmediate (fun _ => encodeMI_fields 4),
    .of_rowDecodes rowDecodes_illegalManipulate101 (fun _ h => h.symm),
    .of_rowDecodes rowDecodes_illegalManipulate110 (fun _ h => h.symm),
    .of_rowDecodes rowDecodes_move (fun _ => encodeMR_registers 7),
    .of_rowDecodes rowDecodes_jump (fun _ => encodeJ_field 0),
    .of_rowDecodes rowDecodes_jumpIfZero (fun _ => encodeJ_field 1),
    .of_rowDecodes rowDecodes_jumpIfNegative (fun _ => encodeJ_field 2),
    .of_rowDecodes rowDecodes_call (fun _ => encodeJ_field 3)⟩

/-- Settles O2, row by row. -/
theorem encodeOfDecodeKeepsUsedBits : Obligations.EncodeOfDecodeKeepsUsedBits := opcodeMap_keepsUsedBits

/-! ### Which row a word selects -/

/-- The words with bits 10:0 zero: each of the 32 opcode numbers selects one row. -/
theorem opcode_selects_one_row : ∀ o : BitVec 5, ∃ r ∈ opcodeMap, r.selects (o ++ 0#11) = true ∧
    ∀ r' ∈ opcodeMap, r'.selects (o ++ 0#11) = true → r' = r := by decide

/-- No row's mask looks below bit 11. -/
theorem mask_le_F800 : ∀ r ∈ opcodeMap, 0xF800#16 &&& r.mask = r.mask := by decide

/-- A row is selected by the opcode number in bits 15:11 alone. -/
theorem selects_iff_opcode {r : OpcodeRow} (hr : r ∈ opcodeMap) (w : Word) :
    r.selects w = true ↔ r.selects (w.extractLsb' 11 5 ++ 0#11) = true := by
  have htop : (w.extractLsb' 11 5 ++ 0#11 : Word) = w &&& 0xF800#16 := by
    rw [← BitVec.toNat_inj, toNat_append_eq, toNat_field, and_maskF800_toNat]
    have := w.isLt
    simp
    omega
  rw [OpcodeRow.selects, OpcodeRow.selects, htop, BitVec.and_assoc, mask_le_F800 r hr]

/-- Settles O3, by the word's opcode number. -/
theorem everyWordSelectsExactlyOneRow : Obligations.EveryWordSelectsExactlyOneRow := by
  intro w
  obtain ⟨r, hr, hsel, huniq⟩ := opcode_selects_one_row (w.extractLsb' 11 5)
  exact ⟨r, hr, (selects_iff_opcode hr w).2 hsel, fun r' hr' h => huniq r' hr' ((selects_iff_opcode hr' w).1 h)⟩

/-! ### The formulas, the unused bits and the bytes -/

/-- Settles O4: each instruction's format is its formula. -/
theorem encodeFollowsTheFormulas : Obligations.EncodeFollowsTheFormulas := by
  refine ⟨⟨rfl, rfl, rfl, rfl⟩, fun a v => ?immediates, fun a b off => ?registers, fun t => ?targets⟩
  case immediates =>
    exact ⟨encodeTI_eq_formulaTI 0 a v, encodeTI_eq_formulaTI 1 a v, encodeTI_eq_formulaTI 4 a v,
      encodeMI_eq_formulaMI 2 a v, encodeMI_eq_formulaMI 4 a v⟩
  case registers =>
    exact ⟨encodeTR_eq_formulaTR 2 a b 0, encodeTR_eq_formulaTR 3 a b off, encodeTR_eq_formulaTR 5 a b 0,
      encodeTR_eq_formulaTR 6 a b off, encodeMR_eq_formulaMR 0 a 0, encodeMR_eq_formulaMR 1 a b,
      encodeMR_eq_formulaMR 3 a b, encodeMR_eq_formulaMR 7 a b⟩
  case targets =>
    exact ⟨encodeJ_eq_formulaJ 0 t, encodeJ_eq_formulaJ 1 t, encodeJ_eq_formulaJ 2 t, encodeJ_eq_formulaJ 3 t⟩

/-- The used bits of a row include its class and sub-opcode. -/
theorem used_includes_mask : ∀ r ∈ opcodeMap, r.used &&& r.mask = r.mask := by decide

/-- A word that agrees with a row's word on the used bits is in the row. -/
theorem selects_of_used_eq {r : OpcodeRow} (hr : r ∈ opcodeMap) {w w' : Word} (hw : r.selects w = true)
    (h : w &&& r.used = w' &&& r.used) : r.selects w' = true := by
  have hmask : w &&& r.mask = w' &&& r.mask := by
    rw [← used_includes_mask r hr, ← BitVec.and_assoc, ← BitVec.and_assoc, h]
  rwa [OpcodeRow.selects, ← hmask]

/-- Settles O5: both words decode to an instruction with the same encoding, and an encoding has one instruction. -/
theorem unusedBitsDoNotChangeTheInstruction : Obligations.UnusedBitsDoNotChangeTheInstruction := by
  intro r hr w w' hw h
  have hw' : r.selects w' = true := selects_of_used_eq hr hw h
  have henc : encode (decode w) = encode (decode w') := by
    rw [(encodeOfDecodeKeepsUsedBits r hr w hw).2, (encodeOfDecodeKeepsUsedBits r hr w' hw').2, h]
  rw [← decodeOfEncodeIsTheInstruction (decode w), henc, decodeOfEncodeIsTheInstruction]

/-- Settles O6: the two bytes join to the encoded word, which decodes to the instruction. -/
theorem bytesDecodeBigEndianAndRoundTrip : Obligations.BytesDecodeBigEndianAndRoundTrip := by
  refine ⟨fun i rest => ?roundTrip, fun _ _ _ => rfl, fun _ => rfl, rfl⟩
  case roundTrip =>
    change Except.ok (decode (highByte (encode i) ++ lowByte (encode i)), rest) = _
    rw [highByte_append_lowByte, decodeOfEncodeIsTheInstruction]

/-- Settles O7, by running the decoder on the ten words. -/
theorem writtenOutWordsDecode : Obligations.WrittenOutWordsDecode := by
  unfold Obligations.WrittenOutWordsDecode
  decide

end Sys2Proof
end

section
/-! SUPPORT. The assembler of R99: which lines it accepts, and what the instruction of an accepted line says. -/

namespace Sys2Proof

variable {p : Config.Params} {a b : Reg} {i : Instr}

/-! ### Lines with register operands -/

theorem map_fieldOf_isSome (ha : regNameable p a = true) (k : RegField → Instr) :
    ((fieldOf p a).map k).isSome = true := by
  obtain ⟨f, hf, -⟩ := fieldOf_of_regNameable ha
  simp [hf]

theorem bind_fieldOf_isSome (ha : regNameable p a = true) (hb : regNameable p b = true)
    (k : RegField → RegField → Instr) :
    ((fieldOf p a).bind fun f => (fieldOf p b).map fun g => k f g).isSome = true := by
  obtain ⟨f, hf, -⟩ := fieldOf_of_regNameable ha
  obtain ⟨g, hg, -⟩ := fieldOf_of_regNameable hb
  simp [hf, hg]

theorem map_fieldOf_eq_some {k : RegField → Instr} (h : (fieldOf p a).map k = some i) :
    ∃ f, i = k f ∧ regOf p f = a := by
  obtain ⟨f, hf, rfl⟩ := Option.map_eq_some_iff.1 h
  exact ⟨f, rfl, regOf_of_fieldOf hf⟩

theorem bind_fieldOf_eq_some {k : RegField → RegField → Instr}
    (h : ((fieldOf p a).bind fun f => (fieldOf p b).map fun g => k f g) = some i) :
    ∃ f g, i = k f g ∧ regOf p f = a ∧ regOf p g = b := by
  obtain ⟨f, hf, h⟩ := Option.bind_eq_some_iff.1 h
  obtain ⟨g, hi, hg⟩ := map_fieldOf_eq_some h
  exact ⟨f, g, hi, regOf_of_fieldOf hf, hg⟩

/-! ### Which lines assemble -/

theorem wellFormed_of_assemble {l : Asm} (h : assemble p l = some i) : l.wellFormed p = true :=
  (Option.ite_none_right_eq_some.1 h).1

/-- A line in range assembles: each register it names has a field. -/
theorem assemble_isSome_of_wellFormed {l : Asm} (h : l.wellFormed p = true) : (assemble p l).isSome = true := by
  rw [assemble.eq_def, if_pos h]
  cases l with
  | halt | nop | ret | error | jump | jumpIfZero | jumpIfNegative | call => rfl
  | negate => exact map_fieldOf_isSome h _
  | loadImmediate | addImmediate | subtractImmediate | loadAbsolute | storeAbsolute =>
    exact map_fieldOf_isSome (Bool.and_eq_true_iff.1 h).1 _
  | loadIndirect | storeIndirect | addRegister | subtractRegister | move =>
    obtain ⟨ha, hb⟩ := Bool.and_eq_true_iff.1 h
    exact bind_fieldOf_isSome ha hb _
  | loadIndexed | storeIndexed =>
    obtain ⟨hab, -⟩ := Bool.and_eq_true_iff.1 h
    obtain ⟨ha, hb⟩ := Bool.and_eq_true_iff.1 hab
    exact bind_fieldOf_isSome ha hb _

theorem assemble_isSome_iff {l : Asm} : (assemble p l).isSome = true ↔ l.wellFormed p = true := by
  refine ⟨fun h => ?_, assemble_isSome_of_wellFormed⟩
  obtain ⟨i, hi⟩ := Option.isSome_iff_exists.1 h
  exact wellFormed_of_assemble hi

/-- Settles O8: a line assembles exactly if it is well formed, which says R99's ranges operand by operand. -/
theorem assemblerAcceptsExactlyWellFormedLines : Obligations.AssemblerAcceptsExactlyWellFormedLines := by
  intro p l named
  have hnamed : ∀ r, regNameable p r = true ↔ named r := fun _ => regNameable_iff
  rw [assemble_isSome_iff]
  cases l with
  | halt | nop | ret | error => exact iff_of_true rfl trivial
  | loadImmediate | addImmediate | subtractImmediate =>
    simp only [Asm.wellFormed, Bool.and_eq_true, hnamed, immInRange_iff]
  | loadAbsolute | storeAbsolute => simp only [Asm.wellFormed, Bool.and_eq_true, hnamed, addrInRange_iff]
  | loadIndirect | storeIndirect | addRegister | subtractRegister | move =>
    simp only [Asm.wellFormed, Bool.and_eq_true, hnamed]
  | loadIndexed | storeIndexed => simp only [Asm.wellFormed, Bool.and_eq_true, hnamed, offInRange_iff, and_assoc]
  | negate => exact hnamed _
  | jump | jumpIfZero | jumpIfNegative | call => exact targetInRange_iff

/-! ### What an assembled line says -/

theorem ofNat8_toNat {addr : Nat} (h : addrInRange addr = true) : (BitVec.ofNat 8 addr).toNat = addr :=
  Nat.mod_eq_of_lt (Nat.lt_succ_of_le (addrInRange_iff.1 h))

theorem ofNat12_toNat {target : Nat} (h : targetInRange target = true) : (BitVec.ofNat 12 target).toNat = target :=
  Nat.mod_eq_of_lt (Nat.lt_succ_of_le (targetInRange_iff.1 h))

theorem ofInt5_toInt_of_inRange {off : Int} (h : offInRange off = true) : (BitVec.ofInt 5 off).toInt = off := by
  obtain ⟨hlow, hhigh⟩ := offInRange_iff.1 h
  exact ofInt5_toInt hlow hhigh

/-- Settles O9, by the shape of the line. -/
theorem assembledOperandsMeanTheLine : Obligations.AssembledOperandsMeanTheLine := by
  intro p l i h
  obtain ⟨hwf, h⟩ := Option.ite_none_right_eq_some.1 h
  cases l with
  | halt | nop | ret | error => exact (Option.some.inj h).symm
  | jump | jumpIfZero | jumpIfNegative | call => exact ⟨_, (Option.some.inj h).symm, ofNat12_toNat hwf⟩
  | negate => exact map_fieldOf_eq_some h
  | loadImmediate a imm | addImmediate a imm | subtractImmediate a imm =>
    obtain ⟨f, hi, hf⟩ := map_fieldOf_eq_some h
    exact ⟨f, _, hi, hf, ofInt8_toNat imm⟩
  | loadAbsolute | storeAbsolute =>
    obtain ⟨f, hi, hf⟩ := map_fieldOf_eq_some h
    exact ⟨f, _, hi, hf, ofNat8_toNat (Bool.and_eq_true_iff.1 hwf).2⟩
  | loadIndirect | storeIndirect | addRegister | subtractRegister | move => exact bind_fieldOf_eq_some h
  | loadIndexed | storeIndexed =>
    obtain ⟨f, g, hi, hf, hg⟩ := bind_fieldOf_eq_some h
    exact ⟨f, g, _, hi, hf, hg, ofInt5_toInt_of_inRange (Bool.and_eq_true_iff.1 hwf).2⟩

end Sys2Proof
end

section
/-! SUPPORT. The host phase and what runs under it (40_cycle.md R117, log 9): an instruction neither reads nor writes the
phase, so a cycle cut in two by the host is the cycle. -/

namespace Sys2Proof.Machine

variable {s t : State} {p : HostPhase}

/-! ### A state, and an outcome, at another phase -/

/-- The state with the host at phase `p`. -/
def State.atPhase (s : State) (p : HostPhase) : State := { s with phase := p }

/-- The outcome with the host at phase `p` in its next state. -/
def resultAtPhase (p : HostPhase) : Result → Result
  | .next t => .next (t.atPhase p)
  | .fault f => .fault f
  | .refused r => .refused r

@[simp] theorem State.atPhase_halted : (s.atPhase p).halted = s.halted := rfl
@[simp] theorem State.atPhase_params : (s.atPhase p).params = s.params := rfl
@[simp] theorem State.atPhase_reg (q : Reg) : (s.atPhase p).reg q = s.reg q := rfl
@[simp] theorem State.atPhase_atPhase (q : HostPhase) : (s.atPhase q).atPhase p = s.atPhase p := rfl

theorem State.atPhase_self (h : s.phase = p) : s.atPhase p = s := by
  subst h
  rfl

/-- Where both outcomes complete under `P`, in states that differ in the phase at most, and both stop with one fault
otherwise, the one is the other at phase `p`. -/
theorem eq_resultAtPhase_of_cases {P : Prop} {r r' : Result} {g : Fault}
    (hok : P → r = .next t ∧ r' = .next (t.atPhase p)) (hno : ¬P → r = .fault g ∧ r' = .fault g) :
    r' = resultAtPhase p r := by
  by_cases hP : P
  · obtain ⟨rfl, rfl⟩ := hok hP
    rfl
  · obtain ⟨rfl, rfl⟩ := hno hP
    rfl

/-! ### The shared meanings -/

theorem setFieldReg_atPhase (f : RegField) (v : Word) :
    (s.atPhase p).setFieldReg f v = (s.setFieldReg f v).atPhase p := by
  rcases s.setFieldReg_cases v f with ⟨⟨hir, hkept⟩, e⟩ | ⟨hreg, e⟩
  · rw [e, State.setFieldReg_of_kept (s.atPhase p) v f hir hkept]
  · rcases (s.atPhase p).setFieldReg_cases v f with ⟨hir, -⟩ | ⟨-, e'⟩
    · exact absurd hir hreg
    · rw [e, e']
      rfl

theorem loadFrom_atPhase (f : RegField) (a : Word) :
    loadFrom (s.atPhase p) f a = resultAtPhase p (loadFrom s f a) :=
  eq_resultAtPhase_of_cases (P := s.wordInRange a)
    (fun h => ⟨loadFrom_inRange h, (loadFrom_inRange (s := s.atPhase p) h).trans
      (congrArg _ (setFieldReg_atPhase f (s.wordAt a)))⟩)
    (fun h => ⟨loadFrom_outOfRange h, loadFrom_outOfRange (s := s.atPhase p) h⟩)

theorem storeTo_atPhase (f : RegField) (a : Word) :
    storeTo (s.atPhase p) f a = resultAtPhase p (storeTo s f a) :=
  eq_resultAtPhase_of_cases (P := s.wordInRange a)
    (fun h => ⟨storeTo_inRange h, storeTo_inRange (s := s.atPhase p) h⟩)
    (fun h => ⟨storeTo_outOfRange h, storeTo_outOfRange (s := s.atPhase p) h⟩)

theorem execRet_atPhase : execRet (s.atPhase p) = resultAtPhase p (execRet s) :=
  eq_resultAtPhase_of_cases (P := s.wordInRange (s.reg .bp) ∧ s.wordInRange (s.reg .bp - 2#16))
    (fun ⟨h, h'⟩ => ⟨execRet_inRange h h', execRet_inRange (s := s.atPhase p) h h'⟩)
    (fun h => ⟨execRet_outOfRange h, execRet_outOfRange (s := s.atPhase p) h⟩)

theorem execCall_atPhase (t12 : BitVec 12) : execCall t12 (s.atPhase p) = resultAtPhase p (execCall t12 s) :=
  eq_resultAtPhase_of_cases (P := s.wordInRange (s.reg .sp) ∧ s.wordInRange (s.reg .sp + 2#16))
    (fun ⟨h, h'⟩ => ⟨execCall_inRange h h', execCall_inRange (s := s.atPhase p) h h'⟩)
    (fun h => ⟨execCall_outOfRange h, execCall_outOfRange (s := s.atPhase p) h⟩)

theorem arithRegister_atPhase (op : Word → Word → Word) (regA regB : RegField) :
    arithRegister op regA regB (s.atPhase p) = resultAtPhase p (arithRegister op regA regB s) := by
  unfold arithRegister
  rw [State.atPhase_params]
  cases s.params.legacyRegB <;> rfl

/-- The conditional jumps: either way the phase goes along. -/
theorem ite_jumpTo_atPhase {c : Prop} [Decidable c] (t12 : BitVec 12) :
    (if c then (s.atPhase p).jumpTo t12 else s.atPhase p) = (if c then s.jumpTo t12 else s).atPhase p := by
  split <;> rfl

/-! ### One instruction, one execute phase -/

/-- An instruction does the same at every host phase. -/
theorem exec_atPhase (i : Instr) : exec i (s.atPhase p) = resultAtPhase p (exec i s) := by
  cases i with
  | halt | nop | error | illegalFlow100 | illegalFlow101 | illegalFlow110 | illegalFlow111
  | illegalTransfer111 | illegalManipulate101 | illegalManipulate110
  | negate | addImmediate | subtractImmediate | jump => rfl
  | ret => exact execRet_atPhase
  | call => exact execCall_atPhase _
  | loadImmediate | move => exact congrArg _ (setFieldReg_atPhase _ _)
  | loadAbsolute | loadIndirect | loadIndexed => exact loadFrom_atPhase _ _
  | storeAbsolute | storeIndirect | storeIndexed => exact storeTo_atPhase _ _
  | addRegister | subtractRegister => exact arithRegister_atPhase _ _ _
  | jumpIfZero | jumpIfNegative => exact congrArg _ (ite_jumpTo_atPhase _)

/-- Execute does the same at every host phase. -/
theorem execute_atPhase : execute (s.atPhase p) = resultAtPhase p (execute s) := by
  unfold execute
  rw [State.atPhase_halted, State.atPhase_reg]
  split
  · rfl
  · exact exec_atPhase _

end Sys2Proof.Machine
end

section
/-! SUPPORT. The cycle (40_cycle.md R117 to R123): the order of the host's commands, fetch, the step, and the cycles of
a nop, of an illegal word and of a halted machine. -/

namespace Sys2Proof.Machine

variable {s t u : State}

/-! ### The order of the host's commands -/

theorem step_of_ready (h : s.phase = .ready) : step s = orFault (fetch s) execute := by
  have hcycle : step s = cycle s := by rw [step, stepFrom, h]
  cases hh : s.halted with
  | true => rw [hcycle, cycle, if_pos hh, fetch_of_halted hh, orFault_ok, execute_of_halted hh]
  | false => rw [hcycle, cycle, hh, if_neg Bool.false_ne_true]

theorem commandFetch_of_ready (h : s.phase = .ready) :
    commandFetch s = orFault (fetch s) fun u => .next (u.atPhase .fetched, .none) := by
  rw [commandFetch, h]
  rfl

/-- What a command without a reply answers, from the outcome it runs to. -/
def repliedNone : Result → CommandResult
  | .next t => .next (t, .none)
  | .fault f => .fault f
  | .refused r => .refused r

theorem commandExecute_of_fetched (h : s.phase = .fetched) :
    commandExecute s = repliedNone (resultAtPhase .ready (execute s)) := by
  rw [commandExecute, h]
  cases execute s <;> rfl

/-- EXECUTE after the host's FETCH answers what execute answers between cycles. -/
theorem commandExecute_atPhase_fetched (h : u.phase = .ready) :
    commandExecute (u.atPhase .fetched) = repliedNone (execute u) := by
  have hback : (u.atPhase .fetched).atPhase .ready = u := State.atPhase_self h
  rw [commandExecute_of_fetched rfl, ← execute_atPhase, hback]

theorem fetch_phase (h : fetch s = .ok t) : t.phase = s.phase := by
  rcases fetch_ok h with ⟨-, rfl⟩ | ⟨-, -, rfl⟩ <;> rfl

/-- Settles O18: the fetch is the step's own, and execute does not see the phase between them. -/
theorem fetchThenExecuteIsOneStep : Obligations.FetchThenExecuteIsOneStep := by
  intro s hp
  rw [singleCycle, commands, command, commandFetch_of_ready hp, step_of_ready hp]
  cases hf : fetch s with
  | error f => rfl
  | ok u =>
    have hready : u.phase = .ready := (fetch_phase hf).trans hp
    simp only [orFault_ok, commands, command, commandExecute_atPhase_fetched hready]
    cases execute u <;> rfl

theorem command_of_fetched (h : s.phase = .fetched) {c : HostCommand} (hc : c ≠ .execute) :
    command c s = .refused .midCycle := by
  have refuses (k : CommandResult) : betweenCycles s k = .refused .midCycle := by rw [betweenCycles, h]
  cases c with
  | execute => exact absurd rfl hc
  | fetch => rw [command, commandFetch, h]
  | hostInit | load | readReg | isHalted | hasErrored | readByte | readWord => exact refuses _

/-- Settles O17, by the phase of the host's command order. -/
theorem hostCommandOrderIsKept : Obligations.HostCommandOrderIsKept := by
  intro s
  refine ⟨fun hp => ?powerUp, fun hp => ?ready, fun hp => ?fetched, fun hp image hfits => ?load⟩
  case powerUp => simp only [command, commandFetch, commandExecute, step, stepFrom, hp, and_self]
  case ready => rw [command, commandExecute, hp]
  case fetched => exact ⟨by rw [step, stepFrom, hp], fun _ => command_of_fetched hp⟩
  case load => exact ⟨_, (betweenCycles_of_ne_fetched hp _).trans (if_pos hfits), rfl, rfl, rfl⟩

/-! ### Fetch and step -/

/-- The fetched state keeps every register but IR and PC. -/
theorem fetched_regsKept (s : State) : RegsKeptBut s s.fetched [.ir, .pc] :=
  ((RegsKeptBut.refl s _).setReg (.head _) _).setReg (.tail _ (.head _)) _

/-- Settles O22, by whether the machine is halted and the word at PC has its second byte. -/
theorem fetchLoadsIrAndAdvancesPc : Obligations.FetchLoadsIrAndAdvancesPc := by
  intro s
  refine ⟨fetch_of_halted, fun hh hr => ?_, fetch_outOfRange⟩
  exact ⟨_, fetch_inRange hh hr, fetched_ir, fetched_pc, fetched_regsKept s, fun _ _ => rfl, ⟨rfl, rfl⟩,
    fetched_ownKept s⟩

/-- Settles O23: the state the instruction runs on is the fetched one. -/
theorem stepRunsTheDecodedInstruction : Obligations.StepRunsTheDecodedInstruction := by
  rintro s i hp hh hr rfl
  exact step_eq_exec hp hh hr

/-! ### The cycles of a nop and of an illegal word -/

theorem hostInit_pc (s : State) (sp pc : Word) : (s.hostInit sp pc).reg .pc = pc := rfl

/-- Settles O35: the nop leaves the state that the fetch leaves. -/
theorem nopCycleAfterInit : Obligations.NopCycleAfterInit := by
  intro s sp pc hr hw
  have hstep : step (s.hostInit sp pc) = .next (s.hostInit sp pc).fetched := by
    rw [step_eq_exec rfl rfl hr, hostInit_pc, rowDecodes_nop _ hw]
    rfl
  refine ⟨_, hstep, fetched_pc, fetched_ir, fun q hq => fetched_regsKept _ q ?_, ⟨rfl, rfl⟩, fun _ _ => rfl,
    fetched_ownKept _⟩
  rwa [(List.Perm.swap Reg.pc .ir []).mem_iff]

/-- An illegal word's one effect is the error flag. -/
theorem exec_of_isIllegalWord {w : Word} (h : isIllegalWord w) (s : State) : exec (decode w) s = .next s.setErrored :=
  exec_of_error_or_illegal (.inr (decode_isDefined_eq_false_iff.2 h)) s

theorem setErrored_onlyErroredSet (s : State) : OnlyErroredSet s s.setErrored :=
  ⟨rfl, rfl, setErrored_regsKept s, fun _ _ => rfl, setErrored_ownKept s⟩

/-- Settles O36: the fetched state with the error flag set; on IR alone, the flag alone. -/
theorem illegalWordCycleOnlySetsErrored : Obligations.IllegalWordCycleOnlySetsErrored := by
  refine ⟨fun s hp hh hr hw => ?cycle, fun s hh hw => ?execute⟩
  case cycle =>
    have hstep : step s = .next s.fetched.setErrored := by rw [step_eq_exec hp hh hr, exec_of_isIllegalWord hw]
    exact ⟨_, hstep, rfl, hh, fetched_ir, fetched_pc, fetched_regsKept s, fun _ _ => rfl, fetched_ownKept s⟩
  case execute =>
    have hexecute : execute s = .next s.setErrored := by
      rw [execute, hh, if_neg Bool.false_ne_true, exec_of_isIllegalWord hw]
    exact ⟨_, hexecute, setErrored_onlyErroredSet s⟩

/-! ### The halted machine -/

theorem step_of_halted (hp : s.phase = .ready) (hh : s.halted = true) : step s = .next s := by
  rw [step_of_ready hp, fetch_of_halted hh, orFault_ok, execute_of_halted hh]

/-- A state that steps to itself is where any number of steps ends. -/
theorem run_of_step_self (M : Host.Core) {s : M.State} (h : M.step s = .next s) (k : Nat) : M.run k s = .next s := by
  induction k with
  | zero => rfl
  | succ k ih =>
    rw [Host.Core.run, h]
    exact ih

/-- Settles O24, from the step that stays and from what a host command can do to `halted` (O25). -/
theorem haltedMachineIsFrozen : Obligations.HaltedMachineIsFrozen := by
  intro s hh
  obtain ⟨-, -, onlyInitClears, phasesStay⟩ := haltedIsStickyAndSetOnlyByHalt
  obtain ⟨hfetch, hexecute⟩ := phasesStay s hh
  exact ⟨hfetch, hexecute, fun hp => run_of_step_self core (step_of_halted hp hh),
    fun c t r h ht => onlyInitClears s t c r h hh ht⟩

end Sys2Proof.Machine
end

section
/-! SUPPORT. The flow class (41_flow.md R130 to R134) and the illegal rows of the other classes (R147, R166): each row's
words, what its instruction completes with, and what it leaves. -/

namespace Sys2Proof.Machine

variable {s t : State}

/-! ### halt and nop -/

/-- Settles O37: the state with the halt flag set. -/
theorem haltSetsHalted : Obligations.HaltSetsHalted :=
  ⟨rowDecodes_halt, fun s =>
    ⟨s.setHalted, rfl, rfl, rfl, setHalted_regsKept s, fun _ _ => rfl, setHalted_ownKept s⟩⟩

/-- Settles O38: the state itself. -/
theorem nopChangesNothing : Obligations.NopChangesNothing :=
  ⟨rowDecodes_nop, fun s => ⟨s, rfl, .refl s [], .refl s [], .refl s, .refl s⟩⟩

/-! ### return -/

/-- The state a return that completes leaves, by the frame at the old BP. -/
theorem execRet_pops (h : execRet s = .next t) : t.reg .sp = s.reg .bp - 2#16 ∧ t.reg .bp = s.wordAt (s.reg .bp) ∧
    t.reg .pc = s.wordAt (s.reg .bp - 2#16) := by
  obtain ⟨-, -, rfl⟩ := execRet_next h
  simp only [State.setReg_reg, if_true, reduceCtorEq, if_false, and_self]

/-- Settles O39, by whether both words of the frame have their second bytes. -/
theorem returnPopsTheFrame : Obligations.ReturnPopsTheFrame := by
  refine ⟨rowDecodes_ret, fun s => ⟨fun ⟨hframe, hreturn⟩ => ?_, execRet_outOfRange⟩⟩
  have hnext := execRet_inRange hframe hreturn
  obtain ⟨hsp, hbp, hpc⟩ := execRet_pops hnext
  exact ⟨_, hnext, hsp, hbp, hpc, execRet_regsKept hnext, (BytesKeptBut.refl s []).of_mem (execRet_mem hnext),
    execRet_flagsKept hnext, execRet_ownKept hnext⟩

/-! ### error and the illegal rows -/

/-- error and every illegal row complete with the error flag set and nothing else changed. -/
theorem exec_error_or_illegal_onlyErroredSet {i : Instr} (hi : i = .error ∨ i.isDefined = false) (s : State) :
    ∃ t, exec i s = .next t ∧ OnlyErroredSet s t :=
  ⟨_, exec_of_error_or_illegal hi s, setErrored_onlyErroredSet s⟩

/-- Settles O40: error and the first illegal row have the one effect that both share. -/
theorem errorSetsErrored : Obligations.ErrorSetsErrored := by
  refine ⟨rowDecodes_error, fun s => ⟨exec_error_or_illegal_onlyErroredSet (.inl rfl) s, ?_⟩⟩
  calc exec .error s = .next s.setErrored := exec_of_error_or_illegal (.inl rfl) s
    _ = exec .illegalFlow100 s := (exec_of_error_or_illegal (.inr rfl) s).symm

/-- Settles O41: no illegal row is a defined instruction. -/
theorem illegalRowsOnlySetErrored : Obligations.IllegalRowsOnlySetErrored := by
  refine ⟨⟨rowDecodes_illegalFlow100, rowDecodes_illegalFlow101, rowDecodes_illegalFlow110, rowDecodes_illegalFlow111,
    rowDecodes_illegalTransfer111, rowDecodes_illegalManipulate101, rowDecodes_illegalManipulate110⟩, fun s i hi => ?_⟩
  have hundefined : ∀ j ∈ [Instr.illegalFlow100, .illegalFlow101, .illegalFlow110, .illegalFlow111, .illegalTransfer111,
      .illegalManipulate101, .illegalManipulate110], j.isDefined = false := by decide
  exact exec_error_or_illegal_onlyErroredSet (.inr (hundefined i hi)) s

end Sys2Proof.Machine
end

section
/-! SUPPORT. The transfer class (42_transfer.md R140 to R146): each row's words, what its load or store completes with, and
where it stops. -/

namespace Sys2Proof.Machine

variable {s : State}

/-! ### What the shared meanings change -/

/-- A write through a field that selects a register other than IR changes that register and nothing else (R11). -/
theorem setFieldReg_onlyRegSet {f : RegField} (hf : regOf s.params f ≠ .ir) (v : Word) :
    OnlyRegSet s (s.setFieldReg f v) (regOf s.params f) v := by
  rw [State.setFieldReg_of_ne_ir s v f hf]
  exact setReg_onlyRegSet s _ v

/-- A load in range completes with the word in the register its field selects, and changes nothing else. -/
theorem loadFrom_onlyRegSet {f : RegField} {a : Word} (hf : regOf s.params f ≠ .ir) (hr : s.wordInRange a) :
    ∃ t, loadFrom s f a = .next t ∧ OnlyRegSet s t (regOf s.params f) (s.wordAt a) :=
  ⟨_, loadFrom_inRange hr, setFieldReg_onlyRegSet hf _⟩

/-- A store in range completes with its register's word at the address, and changes nothing else. -/
theorem storeTo_onlyWordStored {a : Word} (hr : s.wordInRange a) (f : RegField) :
    ∃ t, storeTo s f a = .next t ∧ OnlyWordStored s t a (s.reg (regOf s.params f)) :=
  ⟨_, storeTo_inRange hr, putWord_onlyWordStored s a _⟩

/-- The indexed address with offset 0 is the base register's value (R91). -/
theorem indexedAddr_zero (s : State) (b : RegField) : s.indexedAddr b 0 = s.fieldReg b := by
  have hoff : sextOff5 0 = 0#16 := by decide
  rw [State.indexedAddr, hoff, BitVec.add_zero]

/-! ### Loads -/

/-- Settles O42: a register write, with no memory access. -/
theorem loadImmediateResult : Obligations.LoadImmediateResult :=
  ⟨rowDecodes_loadImmediate, fun _ _ _ hdest => ⟨_, rfl, setFieldReg_onlyRegSet hdest _⟩⟩

/-- Settles O43: the load at a zero-extended address, which is never 0xFFFF. -/
theorem loadAbsoluteResult : Obligations.LoadAbsoluteResult :=
  ⟨rowDecodes_loadAbsolute, fun s _ addr8 hdest => loadFrom_onlyRegSet hdest (zextAddr8_inRange s addr8)⟩

/-- Settles O44: the load at the base register, by whether that word has its second byte. -/
theorem loadIndirectResult : Obligations.LoadIndirectResult :=
  ⟨rowDecodes_loadIndirect, fun _ _ _ =>
    ⟨fun hdest hr => loadFrom_onlyRegSet hdest hr, fun hr => loadFrom_outOfRange hr⟩⟩

/-- Settles O45: the load at the indexed address; offset 0 gives load-indirect's address. -/
theorem loadIndexedResult : Obligations.LoadIndexedResult :=
  ⟨rowDecodes_loadIndexed, fun s a b _ =>
    ⟨fun hdest hr => loadFrom_onlyRegSet hdest hr, fun hr => loadFrom_outOfRange hr,
      congrArg (loadFrom s a) (indexedAddr_zero s b)⟩⟩

/-! ### Stores -/

/-- Settles O46: the store at a zero-extended address, which is never 0xFFFF. -/
theorem storeAbsoluteResult : Obligations.StoreAbsoluteResult := by
  refine ⟨rowDecodes_storeAbsolute, fun s a addr8 => ?_⟩
  obtain ⟨t, hnext, hstored⟩ := storeTo_onlyWordStored (zextAddr8_inRange s addr8) a
  exact ⟨t, hnext, hstored, rfl⟩

/-- Settles O47: the store at the base register, by whether that word has its second byte. -/
theorem storeIndirectResult : Obligations.StoreIndirectResult :=
  ⟨rowDecodes_storeIndirect, fun _ a _ =>
    ⟨rfl, fun hr => storeTo_onlyWordStored hr a, fun hr => storeTo_outOfRange hr⟩⟩

/-- Settles O48: the store at the indexed address, by whether that word has its second byte. -/
theorem storeIndexedResult : Obligations.StoreIndexedResult :=
  ⟨rowDecodes_storeIndexed, fun _ a _ _ =>
    ⟨rfl, fun hr => storeTo_onlyWordStored hr a, fun hr => storeTo_outOfRange hr⟩⟩

end Sys2Proof.Machine
end

section
/-! SUPPORT. The manipulate class (43_manipulate.md R160 to R165): the arithmetic as numbers modulo 2^16, what an
instruction's write of AC or of the destination leaves, and each row's words and result. -/

namespace Sys2Proof.Machine

variable {s : State} {op : Word → Word → Word} {regA regB : RegField}

/-! ### Arithmetic modulo 2^16 as arithmetic on numbers (R9, R10) -/

theorem zero_sub_eq_ofNat (x : Word) : 0x0000#16 - x = BitVec.ofNat 16 (65536 - x.toNat) := BitVec.zero_sub x

theorem sub_eq_ofNat (x y : Word) : x - y = BitVec.ofNat 16 (x.toNat + 65536 - y.toNat) := by
  have hy := y.isLt
  rw [BitVec.sub_def]
  congr 1
  omega

/-- A word is the number it stands for, taken modulo 2^16. -/
theorem ofInt_toNat_eq (x : Word) : BitVec.ofInt 16 x.toNat = x := by
  rw [BitVec.ofInt_natCast, BitVec.ofNat_toNat, BitVec.setWidth_eq]

/-- Adding a sign-extended immediate adds its signed value (R89). -/
theorem add_sextImm8_eq_ofInt (x : Word) (imm8 : BitVec 8) :
    x + sextImm8 imm8 = BitVec.ofInt 16 (x.toNat + imm8.toInt) := by
  rw [BitVec.ofInt_add, ofInt_toNat_eq]
  rfl

/-- Subtracting a sign-extended immediate subtracts its signed value: adding it again gives the word back. -/
theorem sub_sextImm8_eq_ofInt (x : Word) (imm8 : BitVec 8) :
    x - sextImm8 imm8 = BitVec.ofInt 16 (x.toNat - imm8.toInt) := by
  rw [sub_eq_iff_eq_add]
  calc x = BitVec.ofInt 16 (x.toNat - imm8.toInt + imm8.toInt) := by rw [sub_add_cancel, ofInt_toNat_eq]
    _ = BitVec.ofInt 16 (x.toNat - imm8.toInt) + sextImm8 imm8 := BitVec.ofInt_add _ _

/-! ### What the shared operations leave -/

/-- A write of AC changes AC and nothing else. -/
theorem setAC_onlyRegSet {v w : Word} (h : v = w) : OnlyRegSet s (s.setAC v) .ac w := by
  rw [← h]
  exact setReg_onlyRegSet s .ac v

/-- Writing a register's own value changes nothing. -/
theorem setReg_self (s : State) (r : Reg) : s.setReg r (s.reg r) = s := by
  have hregs : s.regs.set r (s.regs.get r) = s.regs := RegFile.ext_get fun q => by
    rw [RegFile.get_set]
    split
    · next hq => rw [hq]
    · rfl
  rw [State.setReg, State.reg, hregs]

/-- The only changes are that AC holds the next draw and that the draw is counted (R94, log 5). -/
def OnlyAcDrawn (s t : State) : Prop :=
  t.reg .ac = Config.legacyDraw s.draws ∧ t.draws = s.draws + 1 ∧ RegsKeptBut s t [.ac] ∧ BytesKeptBut s t [] ∧
    FlagsKept s t ∧ t.params = s.params ∧ t.phase = s.phase

/-- The two-register arithmetic where regB is read: AC takes the operation's result, and nothing else changes. -/
theorem arithRegister_onlyRegSet {v : Word} (hl : s.params.legacyRegB = .intended)
    (hv : op (s.fieldReg regA) (s.fieldReg regB) = v) :
    ∃ t, arithRegister op regA regB s = .next t ∧ OnlyRegSet s t .ac v :=
  ⟨_, by rw [arithRegister, hl], setAC_onlyRegSet hv⟩

/-- The two-register arithmetic where the second register is unknown: AC takes a draw, whatever the operation. -/
theorem arithRegister_onlyAcDrawn (hl : s.params.legacyRegB = .unknown) :
    ∃ t, arithRegister op regA regB s = .next t ∧ OnlyAcDrawn s t := by
  have hnext : arithRegister op regA regB s = .next (s.afterDraw.setAC s.draw) := by rw [arithRegister, hl]
  exact ⟨_, hnext, by rw [State.setAC_eq, State.setReg_reg, if_pos rfl, State.draw], rfl,
    arithRegister_regsKept hnext, fun _ _ => rfl, ⟨rfl, rfl⟩, rfl, rfl⟩

/-! ### The arithmetic rows -/

/-- Settles O49: AC takes the difference from 0. -/
theorem negateResult : Obligations.NegateResult :=
  ⟨rowDecodes_negate, fun _ _ => ⟨_, rfl, setAC_onlyRegSet (zero_sub_eq_ofNat _)⟩⟩

/-- Settles O50, by whether regB is read or drawn. -/
theorem addRegisterResult : Obligations.AddRegisterResult :=
  ⟨rowDecodes_addRegister, fun _ _ _ =>
    ⟨fun hl => arithRegister_onlyRegSet hl (BitVec.add_def _ _), fun hl => arithRegister_onlyAcDrawn hl⟩⟩

/-- Settles O51: AC takes the sum with the signed immediate. -/
theorem addImmediateResult : Obligations.AddImmediateResult :=
  ⟨rowDecodes_addImmediate, fun _ _ imm8 => ⟨_, rfl, setAC_onlyRegSet (add_sextImm8_eq_ofInt _ imm8)⟩⟩

/-- Settles O52, by whether regB is read or drawn. -/
theorem subtractRegisterResult : Obligations.SubtractRegisterResult :=
  ⟨rowDecodes_subtractRegister, fun _ _ _ =>
    ⟨fun hl => arithRegister_onlyRegSet hl (sub_eq_ofNat _ _), fun hl => arithRegister_onlyAcDrawn hl⟩⟩

/-- Settles O53: AC takes the difference with the signed immediate. -/
theorem subtractImmediateResult : Obligations.SubtractImmediateResult :=
  ⟨rowDecodes_subtractImmediate, fun _ _ imm8 => ⟨_, rfl, setAC_onlyRegSet (sub_sextImm8_eq_ofInt _ imm8)⟩⟩

/-! ### move -/

/-- Settles O54: a write through the regB field; where both fields select one register, its own value is written. -/
theorem moveResult : Obligations.MoveResult := by
  refine ⟨rowDecodes_move, fun s a b hdest => ⟨_, rfl, setFieldReg_onlyRegSet hdest _, fun hsame => ?_⟩⟩
  rw [State.setFieldReg_of_ne_ir s _ b hdest, State.fieldReg_eq, hsame, setReg_self]

end Sys2Proof.Machine
end

section
/-! SUPPORT. The jump class (44_jump.md R180 to R184): each row's words, where a jump is taken and what it leaves, the
frame a call pushes, and the return that pops that frame. -/

namespace Sys2Proof.Machine

variable {s t u : State} {t12 : BitVec 12}

/-! ### A jump and its condition -/

/-- A jump changes PC and nothing else. -/
theorem jumpTo_onlyPcSet (s : State) (t12 : BitVec 12) : OnlyRegSet s (s.jumpTo t12) .pc (t12.zeroExtend 16) := by
  rw [State.jumpTo_eq]
  exact setReg_onlyRegSet s .pc _

/-- A conditional jump under any condition: the jump where it holds, the state itself where it does not. -/
theorem ite_jumpTo_result {c : Prop} [Decidable c] (s : State) (t12 : BitVec 12) :
    (c → OnlyRegSet s (if c then s.jumpTo t12 else s) .pc (t12.zeroExtend 16)) ∧
      (¬c → (if c then s.jumpTo t12 else s) = s) := by
  refine ⟨fun hc => ?_, fun hc => if_neg hc⟩
  rw [if_pos hc]
  exact jumpTo_onlyPcSet s t12

theorem isZero_iff {v : Word} : isZero v = true ↔ v = 0x0000#16 := beq_iff_eq

/-- Bit 15 is the sign in two's complement (R182). -/
theorem getLsbD_15_iff_toInt_neg {v : Word} : v.getLsbD 15 = true ↔ v.toInt < 0 := by
  rw [← decide_eq_true_iff (p := v.toInt < 0), ← BitVec.msb_eq_toInt, BitVec.msb_eq_getLsbD_last]

/-! ### call -/

/-- A call that completes leaves BP at its second word and SP past it. -/
theorem execCall_bp_sp (h : execCall t12 s = .next t) :
    t.reg .bp = s.reg .sp + 2#16 ∧ t.reg .sp = s.reg .sp + 4#16 := by
  obtain ⟨-, -, rfl⟩ := execCall_next h
  have hsp : s.reg .sp + 2#16 + 2#16 = s.reg .sp + 4#16 := BitVec.add_assoc _ _ _
  simp only [State.setReg_reg, if_true, reduceCtorEq, if_false, hsp, and_self]

/-- A call stores to the four bytes from the old SP up, and to no other. -/
theorem execCall_bytesKept (h : execCall t12 s = .next t) :
    BytesKeptBut s t [s.reg .sp, s.reg .sp + 1#16, s.reg .sp + 2#16, s.reg .sp + 3#16] := by
  have hstored : storedBytes s (.call t12) =
      [s.reg .sp, s.reg .sp + 1#16, s.reg .sp + 2#16, s.reg .sp + 2#16 + 1#16] := rfl
  have hlast : s.reg .sp + 2#16 + 1#16 = s.reg .sp + 3#16 := BitVec.add_assoc _ _ _
  rw [← hlast, ← hstored]
  exact memoryChangesOnlyWhereStored _ s t h

/-! ### The return after a call -/

/-- A return that finds a call's frame at BP pops it: the frame is in range for the return, since it was for the call. -/
theorem execRet_of_callFrame (h : execCall t12 s = .next t) (hp : u.params = s.params)
    (hbp : u.reg .bp = s.reg .sp + 2#16) : ∃ v, execRet u = .next v ∧ v.reg .sp = s.reg .sp ∧
      v.reg .bp = u.wordAt (s.reg .sp + 2#16) ∧ v.reg .pc = u.wordAt (s.reg .sp) := by
  obtain ⟨hr, hr', -⟩ := execCall_next h
  have hbase : u.reg .bp - 2#16 = s.reg .sp := by rw [hbp, BitVec.add_sub_cancel]
  have hframe : u.wordInRange (u.reg .bp) := by rwa [State.wordInRange, hp, hbp]
  have hreturn : u.wordInRange (u.reg .bp - 2#16) := by rwa [State.wordInRange, hp, hbase]
  obtain ⟨v, hnext⟩ : ∃ v, execRet u = .next v := ⟨_, execRet_inRange hframe hreturn⟩
  have hpops := execRet_pops hnext
  rw [hbase, hbp] at hpops
  exact ⟨v, hnext, hpops⟩

/-- Settles O59: the return pops the two words the call pushed. -/
theorem callThenReturnRestoresTheCaller : Obligations.CallThenReturnRestoresTheCaller := by
  intro s t u t12 hcall hp hbp hlow hhigh
  obtain ⟨-, hreturnAddr, holdBP⟩ := execCall_frame hcall
  obtain ⟨v, hnext, hvsp, hvbp, hvpc⟩ := execRet_of_callFrame hcall hp hbp
  refine ⟨v, hnext, ?_, ?_, hvsp⟩
  · calc v.reg .pc = u.wordAt (s.reg .sp) := hvpc
      _ = t.wordAt (s.reg .sp) := hlow
      _ = s.reg .pc := hreturnAddr
  · calc v.reg .bp = u.wordAt (s.reg .sp + 2#16) := hvbp
      _ = t.wordAt (s.reg .sp + 2#16) := hhigh
      _ = s.reg .bp := holdBP

/-! ### The jump rows -/

/-- Settles O55: a write of PC. -/
theorem jumpResult : Obligations.JumpResult :=
  ⟨rowDecodes_jump, fun s t12 => ⟨_, rfl, jumpTo_onlyPcSet s t12⟩⟩

/-- Settles O56: the conditional jump on AC equal to zero. -/
theorem jumpIfZeroResult : Obligations.JumpIfZeroResult := by
  refine ⟨rowDecodes_jumpIfZero, fun s t12 => ⟨_, rfl, ?_⟩⟩
  obtain ⟨htaken, hnot⟩ := ite_jumpTo_result (c := isZero (s.reg .ac) = true) s t12
  exact ⟨fun hz => htaken (isZero_iff.2 hz), fun hz => hnot (isZero_iff.not.2 hz)⟩

/-- Settles O57: the conditional jump on AC's bit 15, the sign of AC. -/
theorem jumpIfNegativeResult : Obligations.JumpIfNegativeResult := by
  refine ⟨rowDecodes_jumpIfNegative, fun s t12 => ⟨getLsbD_15_iff_toInt_neg, _, rfl, ?_⟩⟩
  obtain ⟨htaken, hnot⟩ := ite_jumpTo_result (c := isNegative (s.reg .ac) = true) s t12
  exact ⟨htaken, fun hn => hnot (ne_true_of_eq_false hn)⟩

/-- Settles O58, by whether both words of the frame have their second bytes. -/
theorem callPushesTheFrame : Obligations.CallPushesTheFrame := by
  refine ⟨rowDecodes_call, fun s t12 => ⟨fun ⟨hr, hr'⟩ => ?_, execCall_outOfRange⟩⟩
  have hnext := execCall_inRange (t12 := t12) hr hr'
  obtain ⟨hpc, hreturnAddr, holdBP⟩ := execCall_frame hnext
  obtain ⟨hbp, hsp⟩ := execCall_bp_sp hnext
  exact ⟨_, hnext, hreturnAddr, holdBP, hbp, hsp, hpc, execCall_regsKept hnext, execCall_bytesKept hnext,
    execCall_flagsKept hnext, execCall_ownKept hnext⟩

end Sys2Proof.Machine
end

section
/-! SUPPORT. Under `EDGE_WORD = wrap` every word has its second byte (20_memory.md R54), so no access, no instruction and
no step between cycles stops short of a next state (60_exceptions.md R203, 40_cycle.md R123). -/

namespace Sys2Proof.Machine

variable {s : State}

theorem wordInRange_of_wrap (hw : s.params.edgeWord = .wrap) (a : Word) : s.wordInRange a := .inl hw

/-- The two-register arithmetic forms complete whatever `LEGACY_REGB` is: they access no memory. -/
theorem arithRegister_completes (op : Word → Word → Word) (regA regB : RegField) (s : State) :
    ∃ t, arithRegister op regA regB s = .next t := by
  unfold arithRegister
  cases s.params.legacyRegB <;> exact ⟨_, rfl⟩

/-- Every instruction completes: the illegal ones too, and those that access memory find every address in range. -/
theorem exec_completes_of_wrap (hw : s.params.edgeWord = .wrap) (i : Instr) : ∃ t, exec i s = .next t := by
  have inRange := wordInRange_of_wrap hw
  cases i with
  | ret => exact ⟨_, execRet_inRange (inRange _) (inRange _)⟩
  | call => exact ⟨_, execCall_inRange (inRange _) (inRange _)⟩
  | loadAbsolute | loadIndirect | loadIndexed => exact ⟨_, loadFrom_inRange (inRange _)⟩
  | storeAbsolute | storeIndirect | storeIndexed => exact ⟨_, storeTo_inRange (inRange _)⟩
  | addRegister | subtractRegister => exact arithRegister_completes _ _ _ s
  | halt | nop | error | illegalFlow100 | illegalFlow101 | illegalFlow110 | illegalFlow111
  | illegalTransfer111 | illegalManipulate101 | illegalManipulate110
  | loadImmediate | negate | addImmediate | subtractImmediate | move | jump | jumpIfZero | jumpIfNegative =>
    exact ⟨_, rfl⟩

/-- Settles O27: a halted state stays; otherwise the fetch is in range, and the fetched instruction completes on the
fetched state, whose parameters are the same. -/
theorem stepAlwaysCompletesUnderWrap : Obligations.StepAlwaysCompletesUnderWrap := by
  intro s hp hw
  cases hh : s.halted with
  | true => exact ⟨s, step_of_halted hp hh⟩
  | false =>
    rw [step_eq_exec hp hh (wordInRange_of_wrap hw _)]
    exact exec_completes_of_wrap (s := s.fetched) hw _

end Sys2Proof.Machine
end

section
/-! SUPPORT. INIT and the boot sequence (70_reset_and_hazards.md R230, R233): what INIT leaves, that INIT and LOAD do not
see each other, and two host commands in a row. -/

namespace Sys2Proof.Machine

variable {s t u : State} {c c' : HostCommand} {r r' : HostReply} {image : List Byte}

/-! ### INIT -/

/-- INIT is accepted wherever the host may act, at power-up too (R111). -/
theorem command_hostInit (h : s.phase ≠ .fetched) (sp pc : Word) :
    command (.hostInit sp pc) s = .next (s.hostInit sp pc, .none) :=
  betweenCycles_of_ne_fetched h _

@[simp] theorem hostInit_sp (s : State) (sp pc : Word) : (s.hostInit sp pc).reg .sp = sp := rfl
@[simp] theorem hostInit_bp (s : State) (sp pc : Word) : (s.hostInit sp pc).reg .bp = sp - 2#16 := rfl
@[simp] theorem hostInit_halted (s : State) (sp pc : Word) : (s.hostInit sp pc).halted = false := rfl
@[simp] theorem hostInit_errored (s : State) (sp pc : Word) : (s.hostInit sp pc).errored = false := rfl
@[simp] theorem hostInit_mem (s : State) (sp pc : Word) : (s.hostInit sp pc).mem = s.mem := rfl
@[simp] theorem hostInit_params (s : State) (sp pc : Word) : (s.hostInit sp pc).params = s.params := rfl
@[simp] theorem hostInit_phase (s : State) (sp pc : Word) : (s.hostInit sp pc).phase = .ready := rfl

/-- INIT zeroes every register that holds neither a launch value nor the stack's base. -/
theorem hostInit_reg_zero (s : State) (sp pc : Word) {q : Reg} (hq : q ∈ [Reg.r0, .r1, .r2, .r3, .ac, .ir]) :
    (s.hostInit sp pc).reg q = 0#16 := by
  cases q with
  | r0 | r1 | r2 | r3 | ac | ir => rfl
  | sp | bp | pc => exact absurd hq (by decide)

/-- Settles O14: outside a cycle INIT answers the state with INIT's registers, whose memory is the old one. -/
theorem initSetsRegistersAndKeepsMemory : Obligations.InitSetsRegistersAndKeepsMemory := by
  intro s sp pc hp
  have zero {q : Reg} := hostInit_reg_zero s sp pc (q := q)
  exact ⟨_, command_hostInit hp sp pc, zero (by decide), zero (by decide), zero (by decide), zero (by decide),
    zero (by decide), hostInit_sp s sp pc, hostInit_bp s sp pc, hostInit_pc s sp pc, zero (by decide),
    hostInit_halted s sp pc, hostInit_errored s sp pc, (BytesKeptBut.refl s []).of_mem (hostInit_mem s sp pc),
    hostInit_params s sp pc⟩

/-! ### The boot sequence -/

/-- LOAD of an image that fits is accepted wherever the host may act (R56, R111). -/
theorem command_load_fits (h : s.phase ≠ .fetched) (hfits : image.length ≤ 65536) :
    command (.load image) s = .next (s.hostLoad image, .none) :=
  (betweenCycles_of_ne_fetched h _).trans (if_pos hfits)

/-- Two commands that are both accepted, one after the other. -/
theorem commands_pair (h : command c s = .next (t, r)) (h' : command c' t = .next (u, r')) :
    commands [c, c'] s = .next (u, [r, r']) := by
  simp only [commands, h, h']

/-- LOAD writes only memory and INIT everything but memory and the fixed fields, so their order does not matter. -/
theorem hostInit_hostLoad_comm (s : State) (image : List Byte) (sp pc : Word) :
    (s.hostInit sp pc).hostLoad image = (s.hostLoad image).hostInit sp pc := rfl

/-- Settles O20: INIT's registers over the image's memory, which either order of the two commands leaves. -/
theorem bootLeavesTheMachineReady : Obligations.BootLeavesTheMachineReady := by
  intro p image sp pc hfits
  have hpowerUp : (State.powerUp p).phase ≠ .fetched := HostPhase.noConfusion
  have hloaded : ((State.powerUp p).hostLoad image).phase ≠ .fetched := hpowerUp
  have hready : ((State.powerUp p).hostInit sp pc).phase ≠ .fetched := HostPhase.noConfusion
  have loadThenInit : boot p image sp pc =
      .next (((State.powerUp p).hostLoad image).hostInit sp pc, [.none, .none]) :=
    commands_pair (command_load_fits hpowerUp hfits) (command_hostInit hloaded sp pc)
  have initThenLoad : commands [.hostInit sp pc, .load image] (State.powerUp p) =
      .next (((State.powerUp p).hostLoad image).hostInit sp pc, [.none, .none]) := by
    rw [← hostInit_hostLoad_comm]
    exact commands_pair (command_hostInit hpowerUp sp pc) (command_load_fits hready hfits)
  exact ⟨_, loadThenInit, initThenLoad, fun _ h => hostLoad_readByte_image _ h,
    fun _ h => hostLoad_readByte_beyond _ h, hostInit_sp _ sp pc, hostInit_bp _ sp pc, hostInit_pc _ sp pc,
    fun _ hq => hostInit_reg_zero _ sp pc hq, hostInit_halted _ sp pc, hostInit_errored _ sp pc,
    hostInit_params _ sp pc, hostInit_phase _ sp pc⟩

end Sys2Proof.Machine
end
